-- ==== Sys2Proof/Word.lean ====
section
/-! DEFINITION. The widths of the machine's values (spec/00_scope.md R8, R11, R12): bytes, 16-bit words,
and the operand fields of an instruction word. -/

namespace Sys2Proof

/-- A byte, the spec's `u8`: a register V0..VF, a timer, a memory cell. -/
abbrev Byte := BitVec 8

/-- A 16-bit word, the spec's `u16`: the index register, the program counter, a stack entry, an instruction word. -/
abbrev Word := BitVec 16

/-- A register index, the 4-bit field `x` or `y` of an instruction word (R11, R21). -/
abbrev RegIdx := BitVec 4

/-- The 4-bit immediate `n` (R11). -/
abbrev Nibble := BitVec 4

/-- The 12-bit address or literal `nnn` (R11), the spec's `u12`. -/
abbrev Addr12 := BitVec 12

/-- The register VF, index 0xF, the implicit flag output (spec/10_state.md R22). -/
abbrev VF : RegIdx := 0xF#4

/-- `zext_16` of a byte (R12). -/
abbrev zext16 (b : Byte) : Word := b.setWidth 16

/-- A 12-bit address widened to the 16 bits of `pc` and `I`, with zero bits (R12). -/
abbrev addrWord (nnn : Addr12) : Word := nnn.setWidth 16

/-- A flag value: 1 when the condition holds, else 0 (spec/42_alu.md R141 to R145). -/
abbrev flagByte (c : Bool) : Byte := if c then 1#8 else 0#8

end Sys2Proof
end

