-- ==== Sys2Proof/Syntax.lean ====
section
/-! DEFINITION. The instructions, one constructor per row of spec/opcode_table.json, in the table's order.
Every operand has exactly the width of its field (spec/30_encoding.md R81, R82), so every term of `Instr`
has an encoding; what can be ill formed is a word, and `WellFormed.lean` checks words. -/

namespace Sys2Proof

/-- The 35 instruction shapes of spec/30_encoding.md R84. -/
inductive Instr where
  /-- `0000` no-op (R120). -/
  | nop
  /-- `00E0` clear-screen (R171). -/
  | cls
  /-- `00EE` return (R121). -/
  | ret
  /-- `1nnn` jump (R122). -/
  | jp (nnn : Addr12)
  /-- `2nnn` call (R123). -/
  | call (nnn : Addr12)
  /-- `3xnn` skip-eq-imm (R124). -/
  | seImm (x : RegIdx) (nn : Byte)
  /-- `4xnn` skip-ne-imm (R125). -/
  | sneImm (x : RegIdx) (nn : Byte)
  /-- `5xy0` skip-eq-reg (R126). -/
  | seReg (x y : RegIdx)
  /-- `6xnn` load-imm (R135). -/
  | ldImm (x : RegIdx) (nn : Byte)
  /-- `7xnn` add-imm (R136). -/
  | addImm (x : RegIdx) (nn : Byte)
  /-- `8xy0` reg-copy (R137). -/
  | ldReg (x y : RegIdx)
  /-- `8xy1` OR (R138). -/
  | orReg (x y : RegIdx)
  /-- `8xy2` AND (R139). -/
  | andReg (x y : RegIdx)
  /-- `8xy3` XOR (R140). -/
  | xorReg (x y : RegIdx)
  /-- `8xy4` add-reg (R141). -/
  | addReg (x y : RegIdx)
  /-- `8xy5` sub-reg (R142). -/
  | subReg (x y : RegIdx)
  /-- `8xy6` shift-right; the field `y` is in the word and is not read (R143). -/
  | shr (x y : RegIdx)
  /-- `8xy7` sub-reg-rev (R144). -/
  | subnReg (x y : RegIdx)
  /-- `8xyE` shift-left; the field `y` is in the word and is not read (R145). -/
  | shl (x y : RegIdx)
  /-- `9xy0` skip-ne-reg (R127). -/
  | sneReg (x y : RegIdx)
  /-- `Annn` set-index (R155). -/
  | ldIndex (nnn : Addr12)
  /-- `Bnnn` jump-offset (R128). -/
  | jpV0 (nnn : Addr12)
  /-- `Cxnn` random (R146). -/
  | rnd (x : RegIdx) (nn : Byte)
  /-- `Dxyn` draw (R172). -/
  | drw (x y : RegIdx) (n : Nibble)
  /-- `Ex9E` skip-key-pressed (R180). -/
  | skp (x : RegIdx)
  /-- `ExA1` skip-key-not-pressed (R181). -/
  | sknp (x : RegIdx)
  /-- `Fx07` load-delay (R182). -/
  | ldFromDelay (x : RegIdx)
  /-- `Fx0A` wait-key (R183). -/
  | ldKey (x : RegIdx)
  /-- `Fx15` store-delay (R184). -/
  | ldDelay (x : RegIdx)
  /-- `Fx18` store-sound (R185). -/
  | ldSound (x : RegIdx)
  /-- `Fx1E` add-index (R156). -/
  | addIndex (x : RegIdx)
  /-- `Fx29` load-font-addr (R157). -/
  | ldFont (x : RegIdx)
  /-- `Fx33` store-bcd (R158). -/
  | ldBcd (x : RegIdx)
  /-- `Fx55` store-regs (R159). -/
  | storeRegs (x : RegIdx)
  /-- `Fx65` load-regs (R160). -/
  | loadRegs (x : RegIdx)
deriving DecidableEq, Repr

/-- The instruction's mnemonic as spec/opcode_table.json spells it. -/
def Instr.mnemonic : Instr → String
  | .nop => "NOP"
  | .cls => "CLS"
  | .ret => "RET"
  | .jp _ => "JP_nnn"
  | .call _ => "CALL_nnn"
  | .seImm _ _ => "SE_Vx__nn"
  | .sneImm _ _ => "SNE_Vx__nn"
  | .seReg _ _ => "SE_Vx__Vy"
  | .ldImm _ _ => "LD_Vx__nn"
  | .addImm _ _ => "ADD_Vx__nn"
  | .ldReg _ _ => "LD_Vx__Vy"
  | .orReg _ _ => "OR_Vx__Vy"
  | .andReg _ _ => "AND_Vx__Vy"
  | .xorReg _ _ => "XOR_Vx__Vy"
  | .addReg _ _ => "ADD_Vx__Vy"
  | .subReg _ _ => "SUB_Vx__Vy"
  | .shr _ _ => "SHR_Vx____Vy"
  | .subnReg _ _ => "SUBN_Vx__Vy"
  | .shl _ _ => "SHL_Vx____Vy"
  | .sneReg _ _ => "SNE_Vx__Vy"
  | .ldIndex _ => "LD_I__nnn"
  | .jpV0 _ => "JP_V0__nnn"
  | .rnd _ _ => "RND_Vx__nn"
  | .drw _ _ _ => "DRW_Vx__Vy__n"
  | .skp _ => "SKP_Vx"
  | .sknp _ => "SKNP_Vx"
  | .ldFromDelay _ => "LD_Vx__DT"
  | .ldKey _ => "LD_Vx__K"
  | .ldDelay _ => "LD_DT__Vx"
  | .ldSound _ => "LD_ST__Vx"
  | .addIndex _ => "ADD_I__Vx"
  | .ldFont _ => "LD_F__Vx"
  | .ldBcd _ => "LD_B__Vx"
  | .storeRegs _ => "LD__I___Vx"
  | .loadRegs _ => "LD_Vx___I"

end Sys2Proof
end

