-- ==== Sys2Proof/WellFormed.lean ====
section
/-! DEFINITION. Which instruction words are well formed: the opcode map of spec/30_encoding.md R84 as the match and
mask pairs of spec/opcode_table.json. The operands of `Instr` have exactly their fields' widths, so the check is
on words: a word that no row admits is illegal (R85). This table is written apart from the decoder, which follows
the pseudocode of R87; the two are proved to agree. -/

namespace Sys2Proof

/-- One row of spec/opcode_table.json: a word `w` is of this shape when `w & mask = pattern`. -/
structure OpcodeRow where
  mnemonic : String
  pattern  : Word
  mask     : Word
deriving DecidableEq, Repr

/-- The word has the row's fixed bits. -/
def rowAdmits (r : OpcodeRow) (w : Word) : Bool := w &&& r.mask == r.pattern

/-- Some word is admitted by both rows: their patterns agree on the bits both fix. -/
def rowsOverlap (r q : OpcodeRow) : Bool := r.pattern &&& q.mask == q.pattern &&& r.mask

/-- Families 0 to 7: no operation, display, flow and immediate loads. -/
def opcodeRowsLow : List OpcodeRow :=
  [ ⟨"NOP", 0x0000#16, 0xFFFF#16⟩,
    ⟨"CLS", 0x00E0#16, 0xFFFF#16⟩,
    ⟨"RET", 0x00EE#16, 0xFFFF#16⟩,
    ⟨"JP_nnn", 0x1000#16, 0xF000#16⟩,
    ⟨"CALL_nnn", 0x2000#16, 0xF000#16⟩,
    ⟨"SE_Vx__nn", 0x3000#16, 0xF000#16⟩,
    ⟨"SNE_Vx__nn", 0x4000#16, 0xF000#16⟩,
    ⟨"SE_Vx__Vy", 0x5000#16, 0xF00F#16⟩,
    ⟨"LD_Vx__nn", 0x6000#16, 0xF000#16⟩,
    ⟨"ADD_Vx__nn", 0x7000#16, 0xF000#16⟩ ]

/-- Families 8 and 9: register to register. -/
def opcodeRowsAlu : List OpcodeRow :=
  [ ⟨"LD_Vx__Vy", 0x8000#16, 0xF00F#16⟩,
    ⟨"OR_Vx__Vy", 0x8001#16, 0xF00F#16⟩,
    ⟨"AND_Vx__Vy", 0x8002#16, 0xF00F#16⟩,
    ⟨"XOR_Vx__Vy", 0x8003#16, 0xF00F#16⟩,
    ⟨"ADD_Vx__Vy", 0x8004#16, 0xF00F#16⟩,
    ⟨"SUB_Vx__Vy", 0x8005#16, 0xF00F#16⟩,
    ⟨"SHR_Vx____Vy", 0x8006#16, 0xF00F#16⟩,
    ⟨"SUBN_Vx__Vy", 0x8007#16, 0xF00F#16⟩,
    ⟨"SHL_Vx____Vy", 0x800E#16, 0xF00F#16⟩,
    ⟨"SNE_Vx__Vy", 0x9000#16, 0xF00F#16⟩ ]

/-- Families A to F: index, random, draw, keys, timers, memory. -/
def opcodeRowsHigh : List OpcodeRow :=
  [ ⟨"LD_I__nnn", 0xA000#16, 0xF000#16⟩,
    ⟨"JP_V0__nnn", 0xB000#16, 0xF000#16⟩,
    ⟨"RND_Vx__nn", 0xC000#16, 0xF000#16⟩,
    ⟨"DRW_Vx__Vy__n", 0xD000#16, 0xF000#16⟩,
    ⟨"SKP_Vx", 0xE09E#16, 0xF0FF#16⟩,
    ⟨"SKNP_Vx", 0xE0A1#16, 0xF0FF#16⟩,
    ⟨"LD_Vx__DT", 0xF007#16, 0xF0FF#16⟩,
    ⟨"LD_Vx__K", 0xF00A#16, 0xF0FF#16⟩,
    ⟨"LD_DT__Vx", 0xF015#16, 0xF0FF#16⟩,
    ⟨"LD_ST__Vx", 0xF018#16, 0xF0FF#16⟩,
    ⟨"ADD_I__Vx", 0xF01E#16, 0xF0FF#16⟩,
    ⟨"LD_F__Vx", 0xF029#16, 0xF0FF#16⟩,
    ⟨"LD_B__Vx", 0xF033#16, 0xF0FF#16⟩,
    ⟨"LD__I___Vx", 0xF055#16, 0xF0FF#16⟩,
    ⟨"LD_Vx___I", 0xF065#16, 0xF0FF#16⟩ ]

/-- The 35 rows of the opcode map (R84). -/
def opcodeRows : List OpcodeRow := opcodeRowsLow ++ opcodeRowsAlu ++ opcodeRowsHigh

/-- The word decodes to some shape: a row admits it (R84, R85). -/
def wordWellFormed (w : Word) : Bool := opcodeRows.any (fun r => rowAdmits r w)

/-- The rows of the opcode map that carry this mnemonic. -/
def rowsNamed (m : String) : List OpcodeRow := opcodeRows.filter (fun r => r.mnemonic == m)

end Sys2Proof
end

