-- ==== Sys2Proof/Decode.lean ====
section
/-! DEFINITION. Decoding (spec/30_encoding.md R80 to R87) and, after it, the encoder and the conventional text of an
instruction (R95). -/

namespace Sys2Proof

/-- nibble1, the family (R81). -/
def wordFamily (w : Word) : BitVec 4 := w.extractLsb' 12 4

/-- The field `x = w[11:8]` (R11). -/
def fieldX (w : Word) : RegIdx := w.extractLsb' 8 4

/-- The field `y = w[7:4]` (R11). -/
def fieldY (w : Word) : RegIdx := w.extractLsb' 4 4

/-- The field `n = w[3:0]` (R11). -/
def fieldN (w : Word) : Nibble := w.extractLsb' 0 4

/-- The field `nn = w[7:0]` (R11). -/
def fieldNN (w : Word) : Byte := w.extractLsb' 0 8

/-- The field `nnn = w[11:0]` (R11). -/
def fieldNNN (w : Word) : Addr12 := w.extractLsb' 0 12

/-- What decode answers: the shape with its fields, or DecodeFailure with the offending word (R85, R87). -/
inductive Decoded where
  | instr (i : Instr)
  | decodeFailure (word : Word)
deriving DecidableEq, Repr

/-- Family 0: only three words are instructions (R85). -/
def decodeFamily0 (w : Word) : Decoded :=
  if w = 0x0000#16 then .instr .nop
  else if w = 0x00E0#16 then .instr .cls
  else if w = 0x00EE#16 then .instr .ret
  else .decodeFailure w

/-- Families 5 and 9: nibble4 must be 0 (R85). -/
def decodeSkipReg (w : Word) (i : Instr) : Decoded :=
  if fieldN w = 0#4 then .instr i else .decodeFailure w

/-- Family 8: nibble4 selects the operation (R87). -/
def decodeFamily8 (w : Word) : Decoded :=
  match (fieldN w).toNat with
  | 0x0 => .instr (.ldReg (fieldX w) (fieldY w))
  | 0x1 => .instr (.orReg (fieldX w) (fieldY w))
  | 0x2 => .instr (.andReg (fieldX w) (fieldY w))
  | 0x3 => .instr (.xorReg (fieldX w) (fieldY w))
  | 0x4 => .instr (.addReg (fieldX w) (fieldY w))
  | 0x5 => .instr (.subReg (fieldX w) (fieldY w))
  | 0x6 => .instr (.shr (fieldX w) (fieldY w))
  | 0x7 => .instr (.subnReg (fieldX w) (fieldY w))
  | 0xE => .instr (.shl (fieldX w) (fieldY w))
  | _ => .decodeFailure w

/-- Family E: the low byte selects the operation (R87). -/
def decodeFamilyE (w : Word) : Decoded :=
  match (fieldNN w).toNat with
  | 0x9E => .instr (.skp (fieldX w))
  | 0xA1 => .instr (.sknp (fieldX w))
  | _ => .decodeFailure w

/-- Family F: the low byte selects the operation (R87). -/
def decodeFamilyF (w : Word) : Decoded :=
  match (fieldNN w).toNat with
  | 0x07 => .instr (.ldFromDelay (fieldX w))
  | 0x0A => .instr (.ldKey (fieldX w))
  | 0x15 => .instr (.ldDelay (fieldX w))
  | 0x18 => .instr (.ldSound (fieldX w))
  | 0x1E => .instr (.addIndex (fieldX w))
  | 0x29 => .instr (.ldFont (fieldX w))
  | 0x33 => .instr (.ldBcd (fieldX w))
  | 0x55 => .instr (.storeRegs (fieldX w))
  | 0x65 => .instr (.loadRegs (fieldX w))
  | _ => .decodeFailure w

/-- `decode(w)`, a total pure function of the word (R87). -/
def decode (w : Word) : Decoded :=
  match (wordFamily w).toNat with
  | 0x0 => decodeFamily0 w
  | 0x1 => .instr (.jp (fieldNNN w))
  | 0x2 => .instr (.call (fieldNNN w))
  | 0x3 => .instr (.seImm (fieldX w) (fieldNN w))
  | 0x4 => .instr (.sneImm (fieldX w) (fieldNN w))
  | 0x5 => decodeSkipReg w (.seReg (fieldX w) (fieldY w))
  | 0x6 => .instr (.ldImm (fieldX w) (fieldNN w))
  | 0x7 => .instr (.addImm (fieldX w) (fieldNN w))
  | 0x8 => decodeFamily8 w
  | 0x9 => decodeSkipReg w (.sneReg (fieldX w) (fieldY w))
  | 0xA => .instr (.ldIndex (fieldNNN w))
  | 0xB => .instr (.jpV0 (fieldNNN w))
  | 0xC => .instr (.rnd (fieldX w) (fieldNN w))
  | 0xD => .instr (.drw (fieldX w) (fieldY w) (fieldN w))
  | 0xE => decodeFamilyE w
  | _ => decodeFamilyF w

/-- The word of two bytes in memory order: big-endian (spec/20_memory.md R65). -/
def wordOfBytes (hi lo : Byte) : Word := hi ++ lo

/-- The two bytes of a word in memory order (R65). -/
def bytesOfWord (w : Word) : List Byte := [w.extractLsb' 8 8, w.extractLsb' 0 8]

/-- Decode the first instruction of a byte string, with the bytes after it; none where there is no whole word (every
instruction is 2 bytes, R80). -/
def decodeBytes : List Byte → Option (Decoded × List Byte)
  | hi :: lo :: rest => some (decode (wordOfBytes hi lo), rest)
  | _ => none

/-- The instruction of the word whose low `nbits` bits are those of `w`, laid out in memory order and decoded. -/
def decodeTableWord (nbits w : Nat) : Option Instr :=
  match decodeBytes (bytesOfWord (BitVec.ofNat 16 (w % 2 ^ nbits))) with
  | some (.instr i, _) => some i
  | _ => none

/-- The word of the form `NNN` (R81): the family and `nnn`. -/
def wordNNN (family : BitVec 4) (nnn : Addr12) : Word := family ++ nnn

/-- The word of the forms `XNN` and `X` (R81): the family, `x` and the low byte. -/
def wordXNN (family : BitVec 4) (x : RegIdx) (nn : Byte) : Word := family ++ x ++ nn

/-- The word of the forms `XY` and `XYN` (R81): the four nibbles. -/
def wordXYN (family : BitVec 4) (x y : RegIdx) (n : Nibble) : Word := family ++ x ++ y ++ n

/-- The word of an instruction, its fields put in the places of R81 and the selector bits of R84. -/
def encode : Instr → Word
  | .nop => 0x0000#16
  | .cls => 0x00E0#16
  | .ret => 0x00EE#16
  | .jp nnn => wordNNN 0x1#4 nnn
  | .call nnn => wordNNN 0x2#4 nnn
  | .seImm x nn => wordXNN 0x3#4 x nn
  | .sneImm x nn => wordXNN 0x4#4 x nn
  | .seReg x y => wordXYN 0x5#4 x y 0x0#4
  | .ldImm x nn => wordXNN 0x6#4 x nn
  | .addImm x nn => wordXNN 0x7#4 x nn
  | .ldReg x y => wordXYN 0x8#4 x y 0x0#4
  | .orReg x y => wordXYN 0x8#4 x y 0x1#4
  | .andReg x y => wordXYN 0x8#4 x y 0x2#4
  | .xorReg x y => wordXYN 0x8#4 x y 0x3#4
  | .addReg x y => wordXYN 0x8#4 x y 0x4#4
  | .subReg x y => wordXYN 0x8#4 x y 0x5#4
  | .shr x y => wordXYN 0x8#4 x y 0x6#4
  | .subnReg x y => wordXYN 0x8#4 x y 0x7#4
  | .shl x y => wordXYN 0x8#4 x y 0xE#4
  | .sneReg x y => wordXYN 0x9#4 x y 0x0#4
  | .ldIndex nnn => wordNNN 0xA#4 nnn
  | .jpV0 nnn => wordNNN 0xB#4 nnn
  | .rnd x nn => wordXNN 0xC#4 x nn
  | .drw x y n => wordXYN 0xD#4 x y n
  | .skp x => wordXNN 0xE#4 x 0x9E#8
  | .sknp x => wordXNN 0xE#4 x 0xA1#8
  | .ldFromDelay x => wordXNN 0xF#4 x 0x07#8
  | .ldKey x => wordXNN 0xF#4 x 0x0A#8
  | .ldDelay x => wordXNN 0xF#4 x 0x15#8
  | .ldSound x => wordXNN 0xF#4 x 0x18#8
  | .addIndex x => wordXNN 0xF#4 x 0x1E#8
  | .ldFont x => wordXNN 0xF#4 x 0x29#8
  | .ldBcd x => wordXNN 0xF#4 x 0x33#8
  | .storeRegs x => wordXNN 0xF#4 x 0x55#8
  | .loadRegs x => wordXNN 0xF#4 x 0x65#8

/-- A hexadecimal digit of the assembler text (R95). -/
def hexDigit (d : BitVec 4) : String := ("0123456789ABCDEF".toList.getD d.toNat '0').toString

/-- A register's name, `V0`..`VF` (R95). -/
def regText (x : RegIdx) : String := "V" ++ hexDigit x

/-- A byte literal, `0x..` (R95). -/
def byteText (nn : Byte) : String := "0x" ++ hexDigit (nn.extractLsb' 4 4) ++ hexDigit (nn.extractLsb' 0 4)

/-- A 12-bit literal, `0x...` (R95). -/
def addrText (nnn : Addr12) : String :=
  "0x" ++ hexDigit (nnn.extractLsb' 8 4) ++ hexDigit (nnn.extractLsb' 4 4) ++ hexDigit (nnn.extractLsb' 0 4)

/-- A data byte of a listing, `DB nn` (R96). -/
def dataText (b : Byte) : String := "DB " ++ hexDigit (b.extractLsb' 4 4) ++ hexDigit (b.extractLsb' 0 4)

/-- Two operands with the mnemonic before them. -/
def asmText (m a b : String) : String := m ++ " " ++ a ++ ", " ++ b

/-- The instruction in the conventional syntax of R95; a shift shows its unused field `Vy` only when it is not 0. -/
def Instr.text : Instr → String
  | .nop => "NOP"
  | .cls => "CLS"
  | .ret => "RET"
  | .jp nnn => "JP " ++ addrText nnn
  | .call nnn => "CALL " ++ addrText nnn
  | .seImm x nn => asmText "SE" (regText x) (byteText nn)
  | .sneImm x nn => asmText "SNE" (regText x) (byteText nn)
  | .seReg x y => asmText "SE" (regText x) (regText y)
  | .ldImm x nn => asmText "LD" (regText x) (byteText nn)
  | .addImm x nn => asmText "ADD" (regText x) (byteText nn)
  | .ldReg x y => asmText "LD" (regText x) (regText y)
  | .orReg x y => asmText "OR" (regText x) (regText y)
  | .andReg x y => asmText "AND" (regText x) (regText y)
  | .xorReg x y => asmText "XOR" (regText x) (regText y)
  | .addReg x y => asmText "ADD" (regText x) (regText y)
  | .subReg x y => asmText "SUB" (regText x) (regText y)
  | .shr x y => if y = 0#4 then "SHR " ++ regText x else asmText "SHR" (regText x) (regText y)
  | .subnReg x y => asmText "SUBN" (regText x) (regText y)
  | .shl x y => if y = 0#4 then "SHL " ++ regText x else asmText "SHL" (regText x) (regText y)
  | .sneReg x y => asmText "SNE" (regText x) (regText y)
  | .ldIndex nnn => asmText "LD" "I" (addrText nnn)
  | .jpV0 nnn => asmText "JP" "V0" (addrText nnn)
  | .rnd x nn => asmText "RND" (regText x) (byteText nn)
  | .drw x y n => asmText "DRW" (regText x) (regText y) ++ ", 0x" ++ hexDigit n
  | .skp x => "SKP " ++ regText x
  | .sknp x => "SKNP " ++ regText x
  | .ldFromDelay x => asmText "LD" (regText x) "DT"
  | .ldKey x => asmText "LD" (regText x) "K"
  | .ldDelay x => asmText "LD" "DT" (regText x)
  | .ldSound x => asmText "LD" "ST" (regText x)
  | .addIndex x => asmText "ADD" "I" (regText x)
  | .ldFont x => asmText "LD" "F" (regText x)
  | .ldBcd x => asmText "LD" "B" (regText x)
  | .storeRegs x => asmText "LD" "[I]" (regText x)
  | .loadRegs x => asmText "LD" (regText x) "[I]"

end Sys2Proof
end

