-- ==== Sys2Proof/Config.lean ====
section
/-! DEFINITION. What the spec fixes for the block (spec/00_scope.md R8), the parameters it leaves open with their
settings (R9), and the free values. The settings in force stand in `Machine/Settings.lean`. -/

namespace Sys2Proof

/-- `FONT_WRITE` (spec/20_memory.md R63, D13): what a store into the font 0x000..0x04F does. -/
inductive FontWritePolicy where
  /-- The store raises `FontWrite`; the spec's default. -/
  | fault
  /-- The store writes like any other. -/
  | store
deriving DecidableEq, Repr

/-- `VF_AS_DEST` (spec/42_alu.md R148, D15): the final VF of a flag-writing instruction whose destination is VF. -/
inductive VfDestPolicy where
  /-- The writes happen in the order of the instruction's pseudocode; the spec's default. -/
  | clauseOrder
  /-- The flag is written last. -/
  | flagLast
  /-- VF receives a free draw. -/
  | any
deriving DecidableEq, Repr

/-- The spec's default of `FONT_WRITE` (R9). -/
def Config.specFontWrite : FontWritePolicy := .fault

/-- The spec's default of `VF_AS_DEST` (R9). -/
def Config.specVfAsDest : VfDestPolicy := .clauseOrder

/-- `MEM_SIZE` (R8): addresses 0x000 to 0xFFF. -/
abbrev Config.memSize : Nat := 0x1000

/-- `PROGRAM_ORIGIN` (R8). -/
abbrev Config.programOrigin : Nat := 0x200

/-- `MAX_PROGRAM` (R8). -/
abbrev Config.maxProgram : Nat := 3584

/-- The size of the font, `16 glyphs × 5 bytes` from `FONT_BASE` 0x000 (R8, spec/20_memory.md R61). -/
abbrev Config.fontSize : Nat := 0x50

/-- The free draws (log entry 5): `draw_byte()` of spec/42_alu.md R146, and VF under `VF_AS_DEST = any`. It has no
body: the draw numbered `k` is some byte, and nothing can be proved of which. -/
opaque Config.freeByte : Nat → Byte

end Sys2Proof
end

