-- ==== Sys2Proof/Machine/Settings.lean ====
section
/-! DEFINITION. The settings in force of the parameters `FONT`, `FONT_WRITE` and `VF_AS_DEST` (spec/00_scope.md R9):
each is the spec's default. Every operation that depends on a policy takes it as an argument, so the other settings
are modelled too. -/

namespace Sys2Proof.Machine

/-- Glyphs 0 to 7 of the default `FONT` (spec/20_memory.md R61, D12). -/
def fontGlyphsLow : List Byte :=
  [ 0xF0, 0x90, 0x90, 0x90, 0xF0,
    0x20, 0x60, 0x20, 0x20, 0x70,
    0xF0, 0x10, 0xF0, 0x80, 0xF0,
    0xF0, 0x10, 0xF0, 0x10, 0xF0,
    0x90, 0x90, 0xF0, 0x10, 0x10,
    0xF0, 0x80, 0xF0, 0x10, 0xF0,
    0xF0, 0x80, 0xF0, 0x90, 0xF0,
    0xF0, 0x10, 0x20, 0x40, 0x40 ]

/-- Glyphs 8 to F of the default `FONT` (R61, D12). -/
def fontGlyphsHigh : List Byte :=
  [ 0xF0, 0x90, 0xF0, 0x90, 0xF0,
    0xF0, 0x90, 0xF0, 0x10, 0xF0,
    0xF0, 0x90, 0xF0, 0x90, 0x90,
    0xE0, 0x90, 0xE0, 0x90, 0xE0,
    0xF0, 0x80, 0x80, 0x80, 0xF0,
    0xE0, 0x90, 0x90, 0x90, 0xE0,
    0xF0, 0x80, 0xF0, 0x80, 0xF0,
    0xF0, 0x80, 0xF0, 0x80, 0x80 ]

/-- `FONT`, the 80 bytes at 0x000..0x04F after reset. PRESUMED (log entry 1). -/
def font : List Byte := fontGlyphsLow ++ fontGlyphsHigh

/-- The setting of `FONT_WRITE` in force (R63). DESIGN CHOICE (log entry 2): the spec's default. -/
def fontWrite : FontWritePolicy := Config.specFontWrite

/-- The setting of `VF_AS_DEST` in force (R148). DESIGN CHOICE (log entry 3): the spec's default. -/
def vfAsDest : VfDestPolicy := Config.specVfAsDest

end Sys2Proof.Machine
end

