-- ==== Sys2Proof/Machine/State.lean ====
section
/-! DEFINITION. The state of the Machine (spec/10_state.md R20), the fault kinds and the fault record
(spec/60_exceptions.md R200, R201), and the state after reset (R36). -/

namespace Sys2Proof.Machine

/-- The fault kinds of spec/60_exceptions.md R200, each with its kind-specific value (R201). A cycle that raises one
answers a NEXT state in which only `halt` has changed (R202); no step of this model answers `Host.Outcome.fault`,
since the spec gives every cycle its effect. All are safe: the machine stops executing where the engine might go on. -/
inductive Fault where
  /-- Code 1, raised by decode on an illegal word (spec/30_encoding.md R85). Safe. -/
  | decodeFailure
  /-- Code 2, raised by `2nnn` with SP = 16 (spec/41_flow.md R123); the attempted address. Safe. -/
  | stackOverflow (target : Addr12)
  /-- Code 3, raised by `00EE` with SP = 0 (spec/41_flow.md R121). Safe. -/
  | stackUnderflow
  /-- Code 4, raised by a fetch, `Dxyn`, `Fx33`, `Fx55` or `Fx65` that would reach past 0xFFF (spec/20_memory.md R68);
  the lowest failing address. Safe. -/
  | outOfRangeAccess (addr : Nat)
  /-- Code 5, raised by `Fx33` or `Fx55` that would store into 0x000..0x04F while `FONT_WRITE = fault`
  (spec/20_memory.md R63); the lowest failing address. Safe. -/
  | fontWrite (addr : Nat)
  /-- Code 6, raised by `Ex9E` or `ExA1` with a key index above 15 (spec/45_timers_keys.md R180, R181). Safe. -/
  | keyIndexOutOfRange (index : Byte)
deriving DecidableEq, Repr

/-- The numeric label of a fault kind (R200). -/
def Fault.code : Fault → Nat
  | .decodeFailure => 1
  | .stackOverflow _ => 2
  | .stackUnderflow => 3
  | .outOfRangeAccess _ => 4
  | .fontWrite _ => 5
  | .keyIndexOutOfRange _ => 6

/-- The reasons for which a step has no meaning. -/
inductive Refusal where
  /-- An instruction of the table that has no meaning yet. Raised by no arm of `exec`: every instruction is modelled.
  Safe. -/
  | notModelled (mnemonic : String)
deriving DecidableEq, Repr

/-- The fault record of spec/60_exceptions.md R201: the kind with its value, the address the faulting instruction was
fetched from, and its word (none for a fetch fault). -/
structure FaultRecord where
  fault : Fault
  pc    : Word
  word  : Option Word
deriving DecidableEq, Repr

/-- Memory: the bytes that differ from the reset contents, by strictly rising address (log entry 6). -/
abbrev Memory := List Host.Cell

/-- The display: 32 rows of 64 one-bit cells (spec/44_display.md R170); bit `x` of row `y` is the cell `DISP[x, y]`. -/
abbrev Display := Vector (BitVec 64) 32

/-- A cell of the display: its column and its row. -/
abbrev Pixel := Fin 64 × Fin 32

/-- The state record of spec/10_state.md R20, and `draws`, the model's own counter of free values (log entry 5). -/
structure State where
  /-- `mem` (R31). -/
  mem   : Memory
  /-- V0..VF (R21). -/
  v     : Vector Byte 16
  /-- `I` (R26). -/
  index : Word
  /-- `pc` (R23). -/
  pc    : Word
  /-- `SP`, the count of stack entries in use, 0..16 (R24). -/
  sp    : Fin 17
  /-- `STACK[0..15]` (R24). -/
  stack : Vector Word 16
  /-- `DT`, the delay timer (R27). -/
  dt    : Byte
  /-- `ST`, the sound timer (R28). -/
  st    : Byte
  /-- `KEY[0..15]` (R29). -/
  key   : Vector Bool 16
  /-- `DISP` (R30). -/
  disp  : Display
  /-- `halt` (R32). -/
  halt  : Option FaultRecord
  /-- How many free values have been drawn; not the spec's (log entry 5). -/
  draws : Nat
deriving DecidableEq, Repr

/-- The state after `new()` and `reset()` (R36). Memory lists nothing: what an unlisted address reads as is the reset
contents, the font and zeros (`Memory.atReset`). `draws` is a DESIGN CHOICE (log entry 5). -/
def State.reset : State where
  mem   := []
  v     := Vector.replicate 16 0
  index := 0
  pc    := 0x200
  sp    := 0
  stack := Vector.replicate 16 0
  dt    := 0
  st    := 0
  key   := Vector.replicate 16 false
  disp  := Vector.replicate 32 0
  halt  := none
  draws := 0

end Sys2Proof.Machine
end

