-- ==== Sys2Proof/Machine/Ops.lean ====
section
/-! DEFINITION. The named operations over memory, registers, the call stack, the program counter, the display and the
free draws, and the taking of a fault (spec/10_state.md, spec/20_memory.md, spec/60_exceptions.md). -/

namespace Sys2Proof.Machine

/-! ## Memory -/

/-- What an address that memory does not list reads as: its reset contents, the font at 0x000..0x04F and 0 elsewhere
(spec/20_memory.md R61, spec/10_state.md R36). -/
def Memory.atReset (a : Nat) : Byte := font.getD a 0

/-- The byte at `a`: the listed one, else the reset contents. The access checks of R62 are `readFault`. -/
def Memory.read (m : Memory) (a : Nat) : Byte :=
  match m.find? (fun c => c.1 == a) with
  | some c => c.2
  | none => Memory.atReset a

/-- Put a cell in its place by address. -/
def Memory.insertCell : Memory → Host.Cell → Memory
  | [], c => [c]
  | d :: m, c => if c.1 < d.1 then c :: d :: m else d :: Memory.insertCell m c

/-- `mem[a] <- b`: the old cell goes, and the new one is listed unless it is what an unlisted address reads as. The
access checks of R63 are `writeFault`. -/
def Memory.write (m : Memory) (a : Nat) (b : Byte) : Memory :=
  let rest := m.filter (fun c => c.1 != a)
  if b = Memory.atReset a then rest else Memory.insertCell rest (a, b)

/-- The canonical form: addresses strictly rising and inside 0x000..0xFFF, and no cell equal to what its unlisted
address reads as. -/
abbrev Memory.wf (m : Memory) : Prop :=
  m.Pairwise (fun c d => c.1 < d.1) ∧ ∀ c ∈ m, c.1 < Config.memSize ∧ c.2 ≠ Memory.atReset c.1

/-- The `n` bytes at `a`, `a + 1`, … in ascending order (R67). -/
def Memory.readBlock (m : Memory) (a n : Nat) : List Byte :=
  (List.range n).map (fun k => m.read (a + k))

/-- Write the bytes at `a`, `a + 1`, … in ascending order (R67). -/
def Memory.writeBlock (m : Memory) (a : Nat) : List Byte → Memory
  | [] => m
  | b :: bs => Memory.writeBlock (m.write a b) (a + 1) bs

/-- `CheckRead(a)` (R62): the fault of reading the byte at `a`. -/
def readFault (a : Nat) : Option Fault :=
  if 0xFFF < a then some (.outOfRangeAccess a) else none

/-- `CheckWrite(a)` (R63), under a setting of `FONT_WRITE`: the fault of storing to the byte at `a`. -/
def writeFault (p : FontWritePolicy) (a : Nat) : Option Fault :=
  if 0xFFF < a then some (.outOfRangeAccess a)
  else if a ≤ 0x04F ∧ p = .fault then some (.fontWrite a)
  else none

/-- The checks of `n` bytes from `a`, all before any write: the fault of the lowest failing address (R64). -/
def blockFault (check : Nat → Option Fault) (a n : Nat) : Option Fault :=
  (List.range n).findSome? (fun k => check (a + k))

/-! ## Registers -/

/-- Read `V[x]` (R21). -/
def State.reg (s : State) (x : RegIdx) : Byte := s.v[x.toNat]

/-- `V[x] <- b` (R21). -/
def State.setReg (s : State) (x : RegIdx) (b : Byte) : State := { s with v := s.v.set x.toNat b }

/-- `V[k], V[k+1], … <- ` the bytes, in ascending order; an index above 15 names no register. -/
def fillRegs (k : Nat) : List Byte → Vector Byte 16 → Vector Byte 16
  | [], v => v
  | b :: bs, v => fillRegs (k + 1) bs (v.setIfInBounds k b)

/-- `I <- w` (R26). -/
def State.setIndex (s : State) (w : Word) : State := { s with index := w }

/-- `pc <- w`, mod 65536 (R23). -/
def State.setPc (s : State) (w : Word) : State := { s with pc := w }

/-- The advance of the program counter past a fetched word (spec/30_encoding.md R93). -/
def State.advance (s : State) : State := s.setPc (s.pc + 2)

/-- `DT <- b` (R27). -/
def State.setDelay (s : State) (b : Byte) : State := { s with dt := b }

/-- `ST <- b` (R28). -/
def State.setSound (s : State) (b : Byte) : State := { s with st := b }

/-- Memory replaced. -/
def State.setMem (s : State) (m : Memory) : State := { s with mem := m }

/-- The sixteen registers replaced. -/
def State.setRegs (s : State) (v : Vector Byte 16) : State := { s with v := v }

/-- The display replaced. -/
def State.setDisp (s : State) (d : Display) : State := { s with disp := d }

/-! ## Call stack -/

/-- `Push(a)` (R25); none where the stack is full. -/
def State.push (s : State) (a : Word) : Option State :=
  if h : s.sp.val < 16 then
    some { s with stack := s.stack.set s.sp.val a, sp := ⟨s.sp.val + 1, by omega⟩ }
  else none

/-- `Pop()` (R25): the released address and the state with one entry less in use; none where the stack is empty. The
released entry keeps its value. -/
def State.pop (s : State) : Option (Word × State) :=
  if h : 0 < s.sp.val then
    some (s.stack[s.sp.val - 1], { s with sp := ⟨s.sp.val - 1, by omega⟩ })
  else none

/-! ## Display -/

/-- The cell at a column and a row, each wrapped at the edge of the screen (spec/44_display.md R172). -/
def pixelAt (px py : Nat) : Pixel := (Fin.ofNat 64 px, Fin.ofNat 32 py)

/-- `DISP[x, y]`: the cell is lit (R170). -/
def lit (d : Display) (p : Pixel) : Bool := d[p.2].getLsbD p.1

/-- `DISP[x, y] <- not DISP[x, y]` (R172). -/
def toggle (d : Display) (p : Pixel) : Display := d.set p.2 (d[p.2] ^^^ BitVec.twoPow 64 p.1)

/-- Every cell unlit (R171). -/
def blankDisplay : Display := Vector.replicate 32 0

/-! ## Free draws -/

/-- `draw_byte()` (spec/42_alu.md R146): the free byte numbered by the counter. -/
def State.freeByte (s : State) : Byte := Config.freeByte s.draws

/-- The counter past a draw, so that every draw is fresh. -/
def State.countDraw (s : State) : State := { s with draws := s.draws + 1 }

/-! ## Faults -/

/-- Taking a fault (spec/60_exceptions.md R202): only `halt` changes; it holds the kind, the address of the faulting
instruction and its word (R201). The program counter stays at the faulting instruction. -/
def State.enterFault (s : State) (f : Fault) (word : Option Word) : State :=
  { s with halt := some { fault := f, pc := s.pc, word := word } }

/-- The fault an executing instruction raises. The fetched word is the instruction's encoding, since a word decodes
to one instruction only. -/
def State.raise (s : State) (i : Instr) (f : Fault) : Host.Outcome State Fault Refusal :=
  .next (s.enterFault f (some (encode i)))

/-- The one way on after a fault (spec/60_exceptions.md R203, R204), and the reset operation itself
(spec/70_reset_and_hazards.md R231): every field of the spec takes its reset value. The counter of free values goes on,
so that draws after a reset are fresh (log entry 5). -/
def State.restart (s : State) : State := { State.reset with draws := s.draws }

/-! ## Fetch -/

/-- The word at the program counter, big-endian (spec/30_encoding.md R91), or the fault of the first byte that lies
above 0xFFF. -/
def State.fetch (s : State) : Except Fault Word :=
  match blockFault readFault s.pc.toNat 2 with
  | some f => .error f
  | none => .ok (wordOfBytes (s.mem.read s.pc.toNat) (s.mem.read (s.pc.toNat + 1)))

/-- Where the next fetch can find a word: the program counter, or the program origin where no word fits (R91). -/
def State.fetchablePc (s : State) : Word := if s.pc.toNat < 0xFFF then s.pc else BitVec.ofNat 16 Config.programOrigin

/-- `s` with a word placed where the next cycle fetches, and able to fetch it (log entry 7). -/
def State.placeWord (s : State) (w : Word) : State :=
  { s with pc := s.fetchablePc, halt := none, mem := s.mem.writeBlock s.fetchablePc.toNat (bytesOfWord w) }

end Sys2Proof.Machine
end

