-- ==== Sys2Proof/Machine/Operands.lean ====
section
/-! DEFINITION. The operand forms (spec/30_encoding.md R81, R82): effective addresses, skip conditions, key indices,
decimal digits, glyph addresses, sprite pixels. -/

namespace Sys2Proof.Machine

/-- The effective address of the k-th byte of a data access, `I + k`, exact (spec/43_index_memory.md R161). -/
def State.effAddr (s : State) (k : Nat) : Nat := s.index.toNat + k

/-- `n` bytes from `I` (R161). -/
def State.readAtIndex (s : State) (n : Nat) : List Byte := s.mem.readBlock (s.effAddr 0) n

/-- The bytes stored from `I` (R161). -/
def State.storeAtIndex (s : State) (bs : List Byte) : State := s.setMem (s.mem.writeBlock (s.effAddr 0) bs)

/-- The check of reading `n` bytes from `I` (R62, R64). -/
def State.readFaultAtIndex (s : State) (n : Nat) : Option Fault := blockFault readFault (s.effAddr 0) n

/-- The check of storing `n` bytes from `I`, under a setting of `FONT_WRITE` (R63, R64). -/
def State.writeFaultAtIndex (s : State) (p : FontWritePolicy) (n : Nat) : Option Fault :=
  blockFault (writeFault p) (s.effAddr 0) n

/-- The skip of spec/41_flow.md R124 to R127 and spec/45_timers_keys.md R180, R181, on the advanced program counter:
2 more when the condition holds. -/
def State.skipIf (s : State) (c : Bool) : State := if c then s.setPc (s.pc + 2) else s

/-- The registers V0..Vx inclusive, in order (spec/43_index_memory.md R159). -/
def State.regsUpTo (s : State) (x : RegIdx) : List Byte := s.v.toList.take (x.toNat + 1)

/-- The three decimal digits, hundreds first (spec/43_index_memory.md R158). -/
def bcdDigits (b : Byte) : List Byte :=
  [BitVec.ofNat 8 (b.toNat / 100), BitVec.ofNat 8 (b.toNat / 10 % 10), BitVec.ofNat 8 (b.toNat % 10)]

/-- The address of the glyph of the low hexadecimal digit (spec/43_index_memory.md R157). -/
def glyphAddr (b : Byte) : Word := 0x000#16 + 5#16 * zext16 (b &&& 0x0F#8)

/-- `KEY[k]`; none where `k` is above 15 (spec/45_timers_keys.md R180). -/
def State.keyAt (s : State) (k : Nat) : Option Bool := s.key[k]?

/-- The lowest pressed key, if one is pressed (spec/45_timers_keys.md R183). -/
def State.lowestKey (s : State) : Option Nat := (List.range 16).find? (fun k => s.keyAt k == some true)

/-- The cells of one sprite row's set bits: bit 7 at column `x0`, bit 0 at `x0 + 7` (spec/44_display.md R172, D34). -/
def spriteRowPixels (x0 y : Nat) (b : Byte) : List Pixel :=
  ((List.range 8).filter (fun c => b.getLsbD (7 - c))).map (fun c => pixelAt (x0 + c) y)

/-- The cells of the sprite's set bits, row by row (R172). -/
def spritePixels (x0 y0 : Nat) : List Byte → List Pixel
  | [] => []
  | b :: bs => spriteRowPixels x0 y0 b ++ spritePixels x0 (y0 + 1) bs

end Sys2Proof.Machine
end

