-- ==== Sys2Proof/Machine/Flags.lean ====
section
/-! DEFINITION. The flag computations (spec/42_alu.md R141 to R148, spec/44_display.md R172) and the writing of a
result and its flag. VF is the only flag (spec/10_state.md R22). -/

namespace Sys2Proof.Machine

/-- The carry out of bit 7 of `8xy4`: the exact sum exceeds 255 (R141, R147). -/
def carryFlag (a b : Byte) : Byte := flagByte (decide (255 < a.toNat + b.toNat))

/-- NOT borrow of `a − b`: 1 when `a ≥ b`, unsigned (R142, R144, R147). -/
def noBorrowFlag (a b : Byte) : Byte := flagByte (decide (b.toNat ≤ a.toNat))

/-- Bit 0, the bit `8xy6` shifts out (R143). -/
def lowBitFlag (a : Byte) : Byte := a &&& 1#8

/-- Bit 7, the bit `8xyE` shifts out (R145). -/
def highBitFlag (a : Byte) : Byte := (a >>> 7) &&& 1#8

/-- In which order an instruction's pseudocode writes its result and its flag (R141 to R145, R148). -/
inductive ClauseOrder where
  /-- `8xy4`, `8xy5`, `8xy7`. -/
  | resultThenFlag
  /-- `8xy6`, `8xyE`. -/
  | flagThenResult
deriving DecidableEq, Repr

/-- Write the result to `V[x]` and the flag to VF under a setting of `VF_AS_DEST` (R148). The settings differ only
for `x = F`. -/
def State.writeWithFlag (s : State) (p : VfDestPolicy) (o : ClauseOrder) (x : RegIdx) (result flag : Byte) : State :=
  match p, o with
  | .clauseOrder, .resultThenFlag => (s.setReg x result).setReg VF flag
  | .clauseOrder, .flagThenResult => (s.setReg VF flag).setReg x result
  | .flagLast, _ => (s.setReg x result).setReg VF flag
  | .any, _ => if x = VF then s.countDraw.setReg VF s.freeByte else (s.setReg x result).setReg VF flag

/-- Toggle the cells in turn, and whether one of them was lit just before its toggle (spec/44_display.md R172). -/
def toggleAll : List Pixel → Display × Bool → Display × Bool
  | [], acc => acc
  | p :: ps, (d, hit) => toggleAll ps (toggle d p, hit || lit d p)

/-- The display after a draw and its collision flag (R172). -/
def drawSprite (d : Display) (x0 y0 : Nat) (sprite : List Byte) : Display × Bool :=
  toggleAll (spritePixels x0 y0 sprite) (d, false)

end Sys2Proof.Machine
end

