-- ==== Sys2Proof/Machine/Display.lean ====
section
/-! DEFINITION. The display instructions (spec/44_display.md). -/

namespace Sys2Proof.Machine

/-- `CLS` (R171). -/
def execCls (s : State) : Host.Outcome State Fault Refusal := .next (s.advance.setDisp blankDisplay)

/-- The draw of R172 with its checks passed: the sprite is XORed in at `(Vx mod 64, Vy mod 32)` and VF receives the
collision, after the coordinates are read. -/
def State.drawAt (s : State) (x y : RegIdx) (n : Nibble) : State :=
  let r := drawSprite s.disp ((s.reg x).toNat % 64) ((s.reg y).toNat % 32) (s.readAtIndex n.toNat)
  (s.setDisp r.1).setReg VF (flagByte r.2)

/-- `DRW Vx, Vy, n` (R172): with `n = 0` no memory is read, nothing is drawn and VF is 0. -/
def execDrw (x y : RegIdx) (n : Nibble) (s : State) : Host.Outcome State Fault Refusal :=
  match s.readFaultAtIndex n.toNat with
  | some f => s.raise (.drw x y n) f
  | none => .next (s.advance.drawAt x y n)

end Sys2Proof.Machine
end

