-- ==== Sys2Proof/Machine/Flow.lean ====
section
/-! DEFINITION. Control flow and the call stack (spec/41_flow.md). A meaning is given the state at the fetch: `s.pc` is
the address `a` of the instruction, and `s.advance` is the state its execute phase starts from (spec/30_encoding.md R93).
A fault leaves `s` as it was but for `halt` (spec/60_exceptions.md R202). -/

namespace Sys2Proof.Machine

/-- `NOP` (R120). -/
def execNop (s : State) : Host.Outcome State Fault Refusal := .next s.advance

/-- `RET` (R121). -/
def execRet (s : State) : Host.Outcome State Fault Refusal :=
  match s.advance.pop with
  | some (target, t) => .next (t.setPc target)
  | none => s.raise .ret .stackUnderflow

/-- `JP nnn` (R122). -/
def execJp (nnn : Addr12) (s : State) : Host.Outcome State Fault Refusal := .next (s.advance.setPc (addrWord nnn))

/-- `CALL nnn` (R123): the pushed value is the advanced program counter. -/
def execCall (nnn : Addr12) (s : State) : Host.Outcome State Fault Refusal :=
  match s.advance.push s.advance.pc with
  | some t => .next (t.setPc (addrWord nnn))
  | none => s.raise (.call nnn) (.stackOverflow nnn)

/-- `SE Vx, nn` (R124). -/
def execSeImm (x : RegIdx) (nn : Byte) (s : State) : Host.Outcome State Fault Refusal :=
  .next (s.advance.skipIf (s.reg x == nn))

/-- `SNE Vx, nn` (R125). -/
def execSneImm (x : RegIdx) (nn : Byte) (s : State) : Host.Outcome State Fault Refusal :=
  .next (s.advance.skipIf (s.reg x != nn))

/-- `SE Vx, Vy` (R126). -/
def execSeReg (x y : RegIdx) (s : State) : Host.Outcome State Fault Refusal :=
  .next (s.advance.skipIf (s.reg x == s.reg y))

/-- `SNE Vx, Vy` (R127). -/
def execSneReg (x y : RegIdx) (s : State) : Host.Outcome State Fault Refusal :=
  .next (s.advance.skipIf (s.reg x != s.reg y))

/-- `JP V0, nnn` (R128): the register is always V0. -/
def execJpV0 (nnn : Addr12) (s : State) : Host.Outcome State Fault Refusal :=
  .next (s.advance.setPc (addrWord nnn + zext16 (s.reg 0#4)))

end Sys2Proof.Machine
end

