-- ==== Sys2Proof/Machine/IndexMemory.lean ====
section
/-! DEFINITION. The index register and the memory instructions (spec/43_index_memory.md). Every check of an instruction
comes before its first write (spec/20_memory.md R64). -/

namespace Sys2Proof.Machine

/-- `LD I, nnn` (R155). -/
def execLdIndex (nnn : Addr12) (s : State) : Host.Outcome State Fault Refusal :=
  .next (s.advance.setIndex (addrWord nnn))

/-- `ADD I, Vx` (R156): 16-bit wraparound, no flag. -/
def execAddIndex (x : RegIdx) (s : State) : Host.Outcome State Fault Refusal :=
  .next (s.advance.setIndex (s.index + zext16 (s.reg x)))

/-- `LD F, Vx` (R157). -/
def execLdFont (x : RegIdx) (s : State) : Host.Outcome State Fault Refusal :=
  .next (s.advance.setIndex (glyphAddr (s.reg x)))

/-- `LD B, Vx` (R158). -/
def execLdBcd (x : RegIdx) (s : State) : Host.Outcome State Fault Refusal :=
  match s.writeFaultAtIndex fontWrite 3 with
  | some f => s.raise (.ldBcd x) f
  | none => .next (s.advance.storeAtIndex (bcdDigits (s.reg x)))

/-- `LD [I], Vx` (R159): I is not changed. -/
def execStoreRegs (x : RegIdx) (s : State) : Host.Outcome State Fault Refusal :=
  match s.writeFaultAtIndex fontWrite (x.toNat + 1) with
  | some f => s.raise (.storeRegs x) f
  | none => .next (s.advance.storeAtIndex (s.regsUpTo x))

/-- `LD Vx, [I]` (R160): I is not changed. -/
def execLoadRegs (x : RegIdx) (s : State) : Host.Outcome State Fault Refusal :=
  match s.readFaultAtIndex (x.toNat + 1) with
  | some f => s.raise (.loadRegs x) f
  | none => .next (s.advance.setRegs (fillRegs 0 (s.readAtIndex (x.toNat + 1)) s.v))

end Sys2Proof.Machine
end

