-- ==== Sys2Proof/Machine/KeysTimers.lean ====
section
/-! DEFINITION. Key input and timer instructions (spec/45_timers_keys.md). -/

namespace Sys2Proof.Machine

/-- `SKP Vx` (R180). -/
def execSkp (x : RegIdx) (s : State) : Host.Outcome State Fault Refusal :=
  match s.keyAt (s.reg x).toNat with
  | none => s.raise (.skp x) (.keyIndexOutOfRange (s.reg x))
  | some pressed => .next (s.advance.skipIf pressed)

/-- `SKNP Vx` (R181). -/
def execSknp (x : RegIdx) (s : State) : Host.Outcome State Fault Refusal :=
  match s.keyAt (s.reg x).toNat with
  | none => s.raise (.sknp x) (.keyIndexOutOfRange (s.reg x))
  | some pressed => .next (s.advance.skipIf (!pressed))

/-- `LD Vx, DT` (R182). -/
def execLdFromDelay (x : RegIdx) (s : State) : Host.Outcome State Fault Refusal :=
  .next (s.advance.setReg x s.dt)

/-- `LD Vx, K` (R183): with no key pressed the program counter goes back to the instruction and nothing else is
written. -/
def execLdKey (x : RegIdx) (s : State) : Host.Outcome State Fault Refusal :=
  match s.lowestKey with
  | some k => .next (s.advance.setReg x (BitVec.ofNat 8 k))
  | none => .next (s.advance.setPc (s.advance.pc - 2))

/-- `LD DT, Vx` (R184). -/
def execLdDelay (x : RegIdx) (s : State) : Host.Outcome State Fault Refusal :=
  .next (s.advance.setDelay (s.reg x))

/-- `LD ST, Vx` (R185). -/
def execLdSound (x : RegIdx) (s : State) : Host.Outcome State Fault Refusal :=
  .next (s.advance.setSound (s.reg x))

end Sys2Proof.Machine
end

