-- ==== Sys2Proof/Machine/Cycle.lean ====
section
/-! DEFINITION. One cycle (spec/30_encoding.md R88 to R94). -/

namespace Sys2Proof.Machine

/-- The fetch, decode and execute phases of R89, in the check order of R90. -/
def runCycle (s : State) : Host.Outcome State Fault Refusal :=
  match s.fetch with
  | .error f => .next (s.enterFault f none)
  | .ok w =>
    match decode w with
    | .decodeFailure bad => .next (s.enterFault .decodeFailure (some bad))
    | .instr i => exec i s

/-- `cycle()` as a state change (R89): a halted Machine executes nothing (spec/60_exceptions.md R203). -/
def cycleState (s : State) : Host.Outcome State Fault Refusal :=
  if s.halt.isSome then .next s else runCycle s

end Sys2Proof.Machine
end

