-- ==== Sys2Proof/Machine/Step.lean ====
section
/-! DEFINITION. The step of the Machine: one call of `cycle()` (spec/30_encoding.md R88, R89). -/

namespace Sys2Proof.Machine

/-- One cycle. Every state has a next one: a fault is a next state with `halt` set (spec/60_exceptions.md R202), and
a halted Machine stays as it is (R203). -/
def step (s : State) : Host.Outcome State Fault Refusal := cycleState s

/-- `s` with the instruction whose low `nbits` bits are those of `w` placed where the next step fetches it (log
entry 7). -/
def State.withFetchWord (s : State) (nbits w : Nat) : State := s.placeWord (BitVec.ofNat 16 (w % 2 ^ nbits))

end Sys2Proof.Machine
end

