-- ==== Sys2Proof/Machine/HostOps.lean ====
section
/-! DEFINITION. The block's interface: the public operations as atomic transactions on the state, their replies, and
runs in which the host interleaves them freely between cycles (spec/60_exceptions.md R210, R213, R216 to R221,
spec/70_reset_and_hazards.md R230 to R234). -/

namespace Sys2Proof.Machine

/-- The errors of host operations (R218). They are replies: no state changes. -/
inductive HostError where
  /-- A program of more than 3584 bytes (R232). Safe. -/
  | programTooLarge
  /-- `set_key` with an index above 15 (R216). Safe. -/
  | keyIndexInvalid
deriving DecidableEq, Repr

/-- What an operation returns to the host (R218). -/
inductive Reply where
  | ok
  | error (e : HostError)
  | retired
  | faulted (r : FaultRecord)
  | halted (r : FaultRecord)
  | display (cells : List Bool)
deriving DecidableEq, Repr

/-- The public operations on a Machine that exists (R218). -/
inductive HostEvent where
  | reset
  | loadProgram (bytes : List Byte)
  | cycle
  | tickTimers
  | setKey (index : Nat) (pressed : Bool)
  | readDisplay
deriving DecidableEq, Repr

/-- `new()` (spec/70_reset_and_hazards.md R230). -/
def newMachine : State := State.reset

/-- A timer's tick, saturating at 0 (R210). -/
def tickDown (t : Byte) : Byte := if 0 < t.toNat then t - 1 else t

/-- `tick_timers()` (R210). -/
def State.tickTimers (s : State) : State := (s.setDelay (tickDown s.dt)).setSound (tickDown s.st)

/-- `set_key(index, pressed)` (R216). -/
def State.setKey (s : State) (index : Nat) (pressed : Bool) : State × Reply :=
  if h : index < 16 then ({ s with key := s.key.set index pressed }, .ok) else (s, .error .keyIndexInvalid)

/-- `load_program(bytes)` (spec/70_reset_and_hazards.md R232): it writes only the buffer's bytes, and the font lies
below them. -/
def State.loadProgram (s : State) (bytes : List Byte) : State × Reply :=
  if Config.maxProgram < bytes.length then (s, .error .programTooLarge)
  else (s.setMem (s.mem.writeBlock Config.programOrigin bytes), .ok)

/-- `read_display()` (R217): element `x + 64·y` is `DISP[x, y]`. -/
def State.readDisplay (s : State) : List Bool :=
  (List.range 2048).map (fun k => lit s.disp (pixelAt (k % 64) (k / 64)))

/-- The sound output, `ST ≠ 0` (R213). -/
def State.soundActive (s : State) : Bool := s.st != 0#8

/-- The read-only view of the whole state (R221). -/
def State.introspect (s : State) : State := s

/-- What `cycle()` returns, from the state before and after it (spec/30_encoding.md R89). -/
def cycleReply (before after : State) : Reply :=
  match before.halt, after.halt with
  | some r, _ => .halted r
  | none, some r => .faulted r
  | none, none => .retired

/-- One transaction (R218): the next state and the reply. -/
def perform (e : HostEvent) (s : State) : Host.Outcome (State × Reply) Fault Refusal :=
  match e with
  | .reset => .next (s.restart, .ok)
  | .loadProgram bytes => .next (s.loadProgram bytes)
  | .cycle =>
    match step s with
    | .next t => .next (t, cycleReply s t)
    | .fault f => .fault f
    | .refused r => .refused r
  | .tickTimers => .next (s.tickTimers, .ok)
  | .setKey index pressed => .next (s.setKey index pressed)
  | .readDisplay => .next (s, .display s.readDisplay)

/-- A run: the host's operations in order (R219). The host's choices are the list. -/
def performAll : List HostEvent → State → Host.Outcome State Fault Refusal
  | [], s => .next s
  | e :: es, s =>
    match perform e s with
    | .next (t, _) => performAll es t
    | .fault f => .fault f
    | .refused r => .refused r

end Sys2Proof.Machine
end

