-- ==== Sys2Proof/Safety.lean ====
section
/-! DEFINITION. What counts as a safe run, and the terms the claims are stated in: the invariant, the ends of a run,
and what an instruction may change. -/

namespace Sys2Proof.Machine

/-- The invariant of the state: memory in its canonical form. The other bounds of spec/10_state.md R20 are in the types. -/
abbrev State.Inv (s : State) : Prop := s.mem.wf

/-- The font bytes are the reset ones (spec/20_memory.md R61: the font is fixed). -/
def State.FontIntact (s : State) : Prop := ∀ a, a < Config.fontSize → s.mem.read a = Memory.atReset a

/-- The Machine has not stopped on a fault (spec/10_state.md R32). -/
abbrev State.Running (s : State) : Prop := s.halt = none

/-- A run that is safe: it answers a state, and that state has not stopped on a fault (spec/60_exceptions.md R223). -/
def SafeRun (es : List HostEvent) (s : State) : Prop := ∃ t, performAll es s = .next t ∧ t.Running

/-- The end (c) of spec/60_exceptions.md R223: the word at the program counter is a jump to itself. -/
def State.AtSelfLoop (s : State) : Prop :=
  ∃ nnn : Addr12, s.pc = addrWord nnn ∧ s.fetch = .ok (encode (.jp nnn))

/-! ## What an execution does -/

/-- The instruction completes from `s` in a state that meets `post`. -/
def Completes (i : Instr) (s : State) (post : State → Prop) : Prop := ∃ t, exec i s = .next t ∧ post t

/-- The instruction takes the fault `f`: the state is `s` with only `halt` changed, to the record of `f`
(spec/60_exceptions.md R201, R202). -/
def TakesFault (i : Instr) (s : State) (f : Fault) : Prop :=
  exec i s = .next { s with halt := some { fault := f, pc := s.pc, word := some (encode i) } }

/-- The bytes `I .. I + n − 1` may be read (spec/20_memory.md R62). -/
def State.CanRead (s : State) (n : Nat) : Prop := s.effAddr 0 + n ≤ Config.memSize

/-- The bytes `I .. I + n − 1` may be stored to under the setting of `FONT_WRITE` in force (spec/20_memory.md R63). -/
def State.CanStore (s : State) (n : Nat) : Prop :=
  s.effAddr 0 + n ≤ Config.memSize ∧ (fontWrite = .fault → 0x04F < s.effAddr 0)

/-- `f` is the fault of an access to the `n ≥ 1` bytes at `I` of which the last lies above 0xFFF: it names the lowest
address above 0xFFF among them (spec/20_memory.md R64, R68). -/
def State.ReachesPastEnd (s : State) (n : Nat) (f : Fault) : Prop :=
  0 < n ∧ 0xFFF < s.effAddr (n - 1) ∧ f = .outOfRangeAccess (max (s.effAddr 0) 0x1000)

/-- `f` is the fault of a store at `I` while `I` lies in the font and `FONT_WRITE = fault` (spec/20_memory.md R63): it
names the lowest address, `I`. -/
def State.StoresIntoFont (s : State) (f : Fault) : Prop :=
  fontWrite = .fault ∧ s.effAddr 0 ≤ 0x04F ∧ f = .fontWrite (s.effAddr 0)

/-- The bit of the sprite at `I` of height `n`, placed at the coordinates in Vx and Vy, that lands on a cell
(spec/44_display.md R172). -/
def State.SpriteCovers (s : State) (x y : RegIdx) (n : Nibble) (p : Pixel) : Prop :=
  ∃ r c, r < n.toNat ∧ c < 8 ∧ (s.mem.read (s.effAddr r)).getLsbD (7 - c) = true ∧
    p.1.val = ((s.reg x).toNat % 64 + c) % 64 ∧ p.2.val = ((s.reg y).toNat % 32 + r) % 32

/-! ## What changes and what does not

The counter of free values is the model's own (log entry 5) and is not asked about. -/

/-- Every byte of memory reads the same. -/
def SameMem (s t : State) : Prop := ∀ a, t.mem.read a = s.mem.read a

/-- Every byte of memory outside the `n` bytes at `a` reads the same. -/
def SameMemOutside (a n : Nat) (s t : State) : Prop :=
  ∀ b, (b < a ∨ a + n ≤ b) → t.mem.read b = s.mem.read b

/-- Every register outside `p` is the same. -/
def SameRegsExcept (p : RegIdx → Prop) (s t : State) : Prop := ∀ r, ¬ p r → t.reg r = s.reg r

/-- Every register is the same. -/
def SameRegs (s t : State) : Prop := ∀ r, t.reg r = s.reg r

/-- The call stack is the same, with its pointer. -/
def SameStack (s t : State) : Prop := t.sp = s.sp ∧ t.stack = s.stack

/-- The timers are the same. -/
def SameTimers (s t : State) : Prop := t.dt = s.dt ∧ t.st = s.st

/-- The key states and the fault status are the same. -/
def SameKeysHalt (s t : State) : Prop := t.key = s.key ∧ t.halt = s.halt

/-- Everything but memory, the general registers and the program counter is the same. -/
def SameButMemRegsPc (s t : State) : Prop :=
  t.index = s.index ∧ SameStack s t ∧ SameTimers s t ∧ t.disp = s.disp ∧ SameKeysHalt s t

/-- Everything but the general registers and the program counter is the same. -/
def SameButRegsPc (s t : State) : Prop := SameMem s t ∧ SameButMemRegsPc s t

/-- Everything but the program counter is the same. -/
def SameButPc (s t : State) : Prop := SameRegs s t ∧ SameButRegsPc s t

/-- The instruction wrote `V[x]` only, and went on to the next word. -/
def OnlyReg (x : RegIdx) (s t : State) : Prop :=
  t.pc = s.pc + 2 ∧ SameRegsExcept (fun r => r = x) s t ∧ SameButRegsPc s t

/-- The instruction wrote `V[x]` and VF only, and went on to the next word. -/
def OnlyRegAndFlag (x : RegIdx) (s t : State) : Prop :=
  t.pc = s.pc + 2 ∧ SameRegsExcept (fun r => r = x ∨ r = VF) s t ∧ SameButRegsPc s t

/-- The instruction wrote the index register only, and went on to the next word. -/
def OnlyIndex (s t : State) : Prop :=
  t.pc = s.pc + 2 ∧ SameRegs s t ∧ SameMem s t ∧ SameStack s t ∧ SameTimers s t ∧ t.disp = s.disp ∧ SameKeysHalt s t

/-- The instruction wrote the `n` bytes at `I` only, and went on to the next word. -/
def OnlyStored (n : Nat) (s t : State) : Prop :=
  t.pc = s.pc + 2 ∧ SameRegs s t ∧ SameMemOutside (s.effAddr 0) n s t ∧ SameButMemRegsPc s t

end Sys2Proof.Machine

namespace Sys2Proof

open Machine

/-- The instruction may write register `r`: its named destination, its flag, or the block it loads
(spec/10_state.md R22, R34). -/
def Instr.WritesReg (i : Instr) (r : RegIdx) : Prop :=
  match i with
  | .ldImm x _ | .addImm x _ | .ldReg x _ | .orReg x _ | .andReg x _ | .xorReg x _ | .rnd x _
  | .ldFromDelay x | .ldKey x => r = x
  | .addReg x _ | .subReg x _ | .shr x _ | .subnReg x _ | .shl x _ => r = x ∨ r = VF
  | .drw _ _ _ => r = VF
  | .loadRegs x => r.toNat ≤ x.toNat
  | .nop | .cls | .ret | .jp _ | .call _ | .seImm _ _ | .sneImm _ _ | .seReg _ _ | .sneReg _ _ | .ldIndex _
  | .jpV0 _ | .skp _ | .sknp _ | .ldDelay _ | .ldSound _ | .addIndex _ | .ldFont _ | .ldBcd _ | .storeRegs _ => False

/-- How many bytes the instruction stores at `I`, `I + 1`, … (spec/20_memory.md R67). -/
def Instr.storedBytes : Instr → Nat
  | .ldBcd _ => 3
  | .storeRegs x => x.toNat + 1
  | .nop | .cls | .ret | .jp _ | .call _ | .seImm _ _ | .sneImm _ _ | .seReg _ _ | .ldImm _ _ | .addImm _ _
  | .ldReg _ _ | .orReg _ _ | .andReg _ _ | .xorReg _ _ | .addReg _ _ | .subReg _ _ | .shr _ _ | .subnReg _ _
  | .shl _ _ | .sneReg _ _ | .ldIndex _ | .jpV0 _ | .rnd _ _ | .drw _ _ _ | .skp _ | .sknp _ | .ldFromDelay _
  | .ldKey _ | .ldDelay _ | .ldSound _ | .addIndex _ | .ldFont _ | .loadRegs _ => 0

/-- The instruction may leave the program counter elsewhere than at the next word: a jump, a call, a return, a skip or
a wait (spec/10_state.md R23). -/
def Instr.redirectsPc : Instr → Bool
  | .ret | .jp _ | .call _ | .seImm _ _ | .sneImm _ _ | .seReg _ _ | .sneReg _ _ | .jpV0 _ | .skp _ | .sknp _
  | .ldKey _ => true
  | .nop | .cls | .ldImm _ _ | .addImm _ _ | .ldReg _ _ | .orReg _ _ | .andReg _ _ | .xorReg _ _ | .addReg _ _
  | .subReg _ _ | .shr _ _ | .subnReg _ _ | .shl _ _ | .ldIndex _ | .rnd _ _ | .drw _ _ _ | .ldFromDelay _
  | .ldDelay _ | .ldSound _ | .addIndex _ | .ldFont _ | .ldBcd _ | .storeRegs _ | .loadRegs _ => false

/-- The instruction raises this fault when it executes from `s`: the kind and value that spec/60_exceptions.md R200 and
R201 give it, under the condition of its own rule (spec/41_flow.md R121, R123; spec/43_index_memory.md R158 to R160;
spec/44_display.md R172; spec/45_timers_keys.md R180, R181). -/
def Instr.CanRaise (i : Instr) (s : State) (f : Fault) : Prop :=
  match i with
  | .call nnn => f = .stackOverflow nnn ∧ s.sp.val = 16
  | .ret => f = .stackUnderflow ∧ s.sp.val = 0
  | .drw _ _ n => s.ReachesPastEnd n.toNat f
  | .loadRegs x => s.ReachesPastEnd (x.toNat + 1) f
  | .ldBcd _ => s.ReachesPastEnd 3 f ∨ s.StoresIntoFont f
  | .storeRegs x => s.ReachesPastEnd (x.toNat + 1) f ∨ s.StoresIntoFont f
  | .skp x | .sknp x => f = .keyIndexOutOfRange (s.reg x) ∧ 15 < (s.reg x).toNat
  | .nop | .cls | .jp _ | .seImm _ _ | .sneImm _ _ | .seReg _ _ | .sneReg _ _ | .ldImm _ _ | .addImm _ _ | .ldReg _ _
  | .orReg _ _ | .andReg _ _ | .xorReg _ _ | .addReg _ _ | .subReg _ _ | .shr _ _ | .subnReg _ _ | .shl _ _
  | .ldIndex _ | .jpV0 _ | .rnd _ _ | .ldFromDelay _ | .ldKey _ | .ldDelay _ | .ldSound _ | .addIndex _
  | .ldFont _ => False

end Sys2Proof
end

