-- ==== Sys2Proof/Certificates/Slice0/Obligations.lean ====
section
/-! DEFINITION. The statements for the provers. Each docstring names the rule of spec/ it formalises. The clauses that say
what stays as it was are the frame rule spec/00_scope.md R15 (the spec's decision D20, log entry 11), and the words in the
decode clauses are those of spec/30_encoding.md R84 (log entry 9). -/

open Sys2Proof Sys2Proof.Machine

/-! ## Encoding -/

/-- Words written out from the opcode map (spec/30_encoding.md R84), at least one of every family. Most of its patterns
are general knowledge, by the spec's own words (R83, log entry 9). -/
def Obligations.DecodeReadsSpecWords : Prop :=
  decode 0x0000#16 = .instr .nop ∧ decode 0x00E0#16 = .instr .cls ∧ decode 0x00EE#16 = .instr .ret ∧
  decode 0x1ABC#16 = .instr (.jp 0xABC#12) ∧ decode 0x2ABC#16 = .instr (.call 0xABC#12) ∧
  decode 0x3A5C#16 = .instr (.seImm 0xA#4 0x5C#8) ∧ decode 0x4A5C#16 = .instr (.sneImm 0xA#4 0x5C#8) ∧
  decode 0x53A0#16 = .instr (.seReg 0x3#4 0xA#4) ∧ decode 0x6A5C#16 = .instr (.ldImm 0xA#4 0x5C#8) ∧
  decode 0x7A5C#16 = .instr (.addImm 0xA#4 0x5C#8) ∧ decode 0x83A4#16 = .instr (.addReg 0x3#4 0xA#4) ∧
  decode 0x93A0#16 = .instr (.sneReg 0x3#4 0xA#4) ∧ decode 0xA123#16 = .instr (.ldIndex 0x123#12) ∧
  decode 0xB123#16 = .instr (.jpV0 0x123#12) ∧ decode 0xC30F#16 = .instr (.rnd 0x3#4 0x0F#8) ∧
  decode 0xD125#16 = .instr (.drw 0x1#4 0x2#4 0x5#4) ∧ decode 0xE59E#16 = .instr (.skp 0x5#4) ∧
  decode 0xF333#16 = .instr (.ldBcd 0x3#4) ∧ decode 0xFA55#16 = .instr (.storeRegs 0xA#4) ∧
  decode 0x0123#16 = .decodeFailure 0x0123#16 ∧ decode 0x8008#16 = .decodeFailure 0x8008#16

/-- No bit of an encoding is dropped: every instruction, with every operand, is what its word decodes to
(spec/30_encoding.md R84, R87). -/
def Obligations.DecodeOfEncodeIsTheInstruction : Prop := ∀ i : Instr, decode (encode i) = .instr i

/-- Every word has at most one meaning: a word that decodes is the word of the instruction it decodes to
(spec/30_encoding.md R87). The fault record names the fetched word by it. -/
def Obligations.EncodeOfDecodeIsTheWord : Prop := ∀ (w : Word) (i : Instr), decode w = .instr i → encode i = w

/-- The illegal words are those of the table of spec/30_encoding.md R85, which the spec marks as its decisions D7 to D10
(log entries 9 and 11), and decode surfaces the word itself. -/
def Obligations.IllegalWordsAreTheListedOnes : Prop :=
  ∀ w : Word,
    (decode w = .decodeFailure w ↔
      (wordFamily w = 0x0#4 ∧ fieldNNN w ≠ 0x000#12 ∧ fieldNNN w ≠ 0x0E0#12 ∧ fieldNNN w ≠ 0x0EE#12) ∨
      (wordFamily w = 0x5#4 ∧ fieldN w ≠ 0x0#4) ∨
      (wordFamily w = 0x8#4 ∧ fieldN w ∈ [0x8#4, 0x9#4, 0xA#4, 0xB#4, 0xC#4, 0xD#4, 0xF#4]) ∨
      (wordFamily w = 0x9#4 ∧ fieldN w ≠ 0x0#4) ∨
      (wordFamily w = 0xE#4 ∧ fieldNN w ≠ 0x9E#8 ∧ fieldNN w ≠ 0xA1#8) ∨
      (wordFamily w = 0xF#4 ∧
        fieldNN w ∉ [0x07#8, 0x0A#8, 0x15#8, 0x18#8, 0x1E#8, 0x29#8, 0x33#8, 0x55#8, 0x65#8])) ∧
    ∀ bad, decode w = .decodeFailure bad → bad = w

/-- The decoder, written from the pseudocode of spec/30_encoding.md R87, agrees with the match and mask pairs of
spec/opcode_table.json: a word decodes exactly when a row admits it, and then the instruction's own row does. -/
def Obligations.DecodeAgreesWithOpcodeTable : Prop :=
  ∀ w : Word, (wordWellFormed w = true ↔ ∃ i, decode w = .instr i) ∧
    ∀ i, decode w = .instr i → ∃ r ∈ opcodeRows, r.mnemonic = i.mnemonic ∧ rowAdmits r w = true ∧
      ∀ q ∈ opcodeRows, rowAdmits q w = true → q = r

/-! ## The cycle -/

/-- Fetch (spec/30_encoding.md R91): the big-endian word of the two bytes at the program counter, odd or even, or the
fault of the first address above 0xFFF. -/
def Obligations.FetchReadsBigEndianWord : Prop :=
  ∀ s : State,
    (s.pc.toNat < 0xFFF → ∃ w, s.fetch = .ok w ∧
      w.toNat = (s.mem.read s.pc.toNat).toNat * 256 + (s.mem.read (s.pc.toNat + 1)).toNat) ∧
    (s.pc.toNat = 0xFFF → s.fetch = .error (.outOfRangeAccess 0x1000)) ∧
    (0xFFF < s.pc.toNat → s.fetch = .error (.outOfRangeAccess s.pc.toNat))

/-- A step of a running Machine whose bytes at the program counter decode to an instruction is the execution of that
instruction, and nothing else (spec/30_encoding.md R89). `exec` is given the state at the fetch and makes the advance
of R93 itself. -/
def Obligations.StepRunsDecodedInstruction : Prop :=
  ∀ (s : State) (i : Instr), s.halt = none → s.pc.toNat < 0xFFF →
    decode (wordOfBytes (s.mem.read s.pc.toNat) (s.mem.read (s.pc.toNat + 1))) = .instr i → step s = exec i s

/-- The fault of a fetch and the fault of an illegal word (spec/30_encoding.md R89, R91, R85): the record has no word
in the first case and the fetched word in the second, and nothing but `halt` changes. -/
def Obligations.StepTakesFetchAndDecodeFaults : Prop :=
  ∀ s : State, s.halt = none →
    (0xFFF ≤ s.pc.toNat →
      step s = .next { s with halt := some ⟨.outOfRangeAccess (max s.pc.toNat 0x1000), s.pc, none⟩ }) ∧
    ∀ w, s.fetch = .ok w → decode w = .decodeFailure w →
      step s = .next { s with halt := some ⟨.decodeFailure, s.pc, some w⟩ }

/-- Every operation of the block completes in one step (spec/70_reset_and_hazards.md R240): a cycle and every host
operation answer a next state, in every state, and no instruction is without meaning. -/
def Obligations.EveryOperationCompletes : Prop :=
  (∀ s : State, ∃ t, step s = .next t) ∧ (∀ (i : Instr) (s : State), ∃ t, exec i s = .next t) ∧
  ∀ (e : HostEvent) (s : State), ∃ t r, perform e s = .next (t, r)

/-- Faults are precise (spec/60_exceptions.md R202): a cycle that halts a running Machine changes only `halt`, and the
record (R201) holds the address of the faulting instruction and the fetched word, if there is one; the cycle returns the
record. -/
def Obligations.FaultingCycleChangesOnlyHalt : Prop :=
  ∀ s t : State, s.halt = none → step s = .next t → t.halt ≠ none →
    ∃ r, t = { s with halt := some r } ∧ perform .cycle s = .next (t, .faulted r) ∧ r.pc = s.pc ∧
      ((∃ w, s.fetch = .ok w ∧ r.word = some w) ∨ (s.fetch = .error r.fault ∧ r.word = none))

/-- Only the listed causes raise a fault (spec/60_exceptions.md R200, the columns "cause" and "raised by"): each fault
comes from the instruction it is listed for, in a state that meets its condition, with the value of R201. -/
def Obligations.FaultsComeOnlyFromListedCauses : Prop :=
  ∀ (s t : State) (r : FaultRecord), s.halt = none → step s = .next t → t.halt = some r →
    (s.fetch = .error r.fault ∧ 0xFFF ≤ s.pc.toNat) ∨
    (∃ w, s.fetch = .ok w ∧ decode w = .decodeFailure w ∧ r.fault = .decodeFailure) ∨
    (∃ w i, s.fetch = .ok w ∧ decode w = .instr i ∧ i.CanRaise s r.fault)

/-- A halted Machine executes nothing (spec/60_exceptions.md R203): a cycle changes nothing and returns the stored
record, the other host operations act as ever and keep `halt`, and `reset()` clears it. -/
def Obligations.HaltedMachineExecutesNothing : Prop :=
  ∀ (s : State) (r : FaultRecord), s.halt = some r →
    step s = .next s ∧ perform .cycle s = .next (s, .halted r) ∧
    perform .readDisplay s = .next (s, .display s.readDisplay) ∧
    perform .tickTimers s = .next ({ s.tickTimers with halt := some r }, .ok) ∧
    (∀ k b, ∃ t a, perform (.setKey k b) s = .next (t, a) ∧ t.halt = some r) ∧
    (∀ bs, ∃ t a, perform (.loadProgram bs) s = .next (t, a) ∧ t.halt = some r) ∧
    ∃ t, perform .reset s = .next (t, .ok) ∧ t.halt = none

/-- Over any run of host operations without a reset, a halted Machine stays halted on the same record and no program
state changes (spec/60_exceptions.md R203, R204). -/
def Obligations.HaltEndsOnlyByReset : Prop :=
  ∀ (es : List HostEvent) (s t : State) (r : FaultRecord), s.halt = some r → HostEvent.reset ∉ es →
    performAll es s = .next t →
    t.halt = some r ∧ SameRegs s t ∧ t.index = s.index ∧ t.pc = s.pc ∧ SameStack s t ∧ t.disp = s.disp ∧
      ∀ a, a < 0x200 → t.mem.read a = s.mem.read a

/-- A running Machine at a jump to itself stays exactly as it is (spec/60_exceptions.md R223 end (c), spec/41_flow.md
R122). -/
def Obligations.SelfLoopChangesNothing : Prop := ∀ s : State, s.Running → s.AtSelfLoop → step s = .next s

/-! ## Invariants -/

/-- The invariant holds of the reset state. -/
def Obligations.ResetStateMeetsInvariant : Prop := State.reset.Inv

/-- Every step keeps memory in its canonical form, from every state that has it. -/
def Obligations.StepKeepsCanonicalMemory : Prop := ∀ s t : State, s.Inv → step s = .next t → t.Inv

/-- Every run of host operations keeps memory in its canonical form (spec/60_exceptions.md R219: any interleaving). -/
def Obligations.HostRunsKeepCanonicalMemory : Prop :=
  ∀ (es : List HostEvent) (s t : State), s.Inv → performAll es s = .next t → t.Inv

/-- Under `FONT_WRITE = fault` the font is immutable (spec/20_memory.md R63): no run of host operations, whatever the
program, changes a font byte. -/
def Obligations.FontNeverChangesUnderFaultPolicy : Prop :=
  fontWrite = .fault → ∀ (es : List HostEvent) (s t : State), s.FontIntact → performAll es s = .next t → t.FontIntact

/-! ## What an instruction may change -/

/-- No register changes but the instruction's destination, its flag or the block it loads (spec/10_state.md R22,
R34). -/
def Obligations.OnlyNamedRegistersChange : Prop :=
  ∀ (i : Instr) (s t : State), exec i s = .next t → SameRegsExcept (fun r => i.WritesReg r) s t

/-- No byte of memory changes but those `Fx33` and `Fx55` store at `I` (spec/20_memory.md R67). -/
def Obligations.OnlyStoredBytesChange : Prop :=
  ∀ (i : Instr) (s t : State), exec i s = .next t → SameMemOutside (s.effAddr 0) i.storedBytes s t

/-- Only call and return write the stack (spec/10_state.md R24), only clear-screen and draw the display (R30), only
`Fx15` and `Fx18` the timers (R27, R28), only `Annn`, `Fx1E` and `Fx29` the index register (R26), and no instruction the
key states (R29). -/
def Obligations.OnlyOwnInstructionsWriteSpecialState : Prop :=
  ∀ (i : Instr) (s t : State), exec i s = .next t →
    (i ≠ .ret → (∀ nnn, i ≠ .call nnn) → SameStack s t) ∧
    (i ≠ .cls → (∀ x y n, i ≠ .drw x y n) → t.disp = s.disp) ∧
    ((∀ x, i ≠ .ldDelay x) → t.dt = s.dt) ∧ ((∀ x, i ≠ .ldSound x) → t.st = s.st) ∧
    ((∀ nnn, i ≠ .ldIndex nnn) → (∀ x, i ≠ .addIndex x) → (∀ x, i ≠ .ldFont x) → t.index = s.index) ∧
    t.key = s.key

/-- After a cycle that raises no fault the program counter has advanced by exactly 2 unless a jump, call, return, skip
or wait rewrote it (spec/10_state.md R23). -/
def Obligations.PcAdvancesByTwoUnlessRedirected : Prop :=
  ∀ (i : Instr) (s t : State), s.halt = none → exec i s = .next t → t.halt = none → i.redirectsPc = false →
    t.pc = s.pc + 2

/-! ## Control flow -/

/-- `0000` (spec/41_flow.md R120). -/
def Obligations.NopOnlyAdvances : Prop :=
  decode 0x0000#16 = .instr .nop ∧
  ∀ s : State, Completes .nop s fun t => t.pc = s.pc + 2 ∧ SameButPc s t

/-- `00EE` (spec/41_flow.md R121). -/
def Obligations.RetPopsOrUnderflows : Prop :=
  decode 0x00EE#16 = .instr .ret ∧
  ∀ s : State,
    (∀ h : 0 < s.sp.val, Completes .ret s fun t =>
      t.pc = s.stack[s.sp.val - 1] ∧ t.sp.val + 1 = s.sp.val ∧ t.stack = s.stack ∧ SameRegs s t ∧ SameMem s t ∧
      t.index = s.index ∧ SameTimers s t ∧ t.disp = s.disp ∧ SameKeysHalt s t) ∧
    (s.sp.val = 0 → TakesFault .ret s .stackUnderflow)

/-- `1nnn` (spec/41_flow.md R122). -/
def Obligations.JumpSetsPc : Prop :=
  ∀ (nnn : Addr12) (s : State),
    decode (wordNNN 0x1#4 nnn) = .instr (.jp nnn) ∧
    Completes (.jp nnn) s fun t => t.pc.toNat = nnn.toNat ∧ SameButPc s t

/-- `2nnn` (spec/41_flow.md R123): the pushed value is the address after the call, and the 17th nested call faults. -/
def Obligations.CallPushesOrOverflows : Prop :=
  ∀ (nnn : Addr12) (s : State),
    decode (wordNNN 0x2#4 nnn) = .instr (.call nnn) ∧
    (s.sp.val < 16 → Completes (.call nnn) s fun t =>
      t.pc.toNat = nnn.toNat ∧ t.sp.val = s.sp.val + 1 ∧
      (∀ k (_ : k < 16), t.stack[k] = if k = s.sp.val then s.pc + 2 else s.stack[k]) ∧ SameRegs s t ∧ SameMem s t ∧
      t.index = s.index ∧ SameTimers s t ∧ t.disp = s.disp ∧ SameKeysHalt s t) ∧
    (s.sp.val = 16 → TakesFault (.call nnn) s (.stackOverflow nnn))

/-- A return straight after a call comes back to the instruction after the call with the stack pointer restored
(spec/41_flow.md R121, R123; spec/95_test_vectors.md L1-10). -/
def Obligations.ReturnComesBackAfterCall : Prop :=
  ∀ (nnn : Addr12) (s : State), s.sp.val < 16 → Completes (.call nnn) s fun t =>
    t.pc.toNat = nnn.toNat ∧ Completes .ret t fun u =>
      u.pc = s.pc + 2 ∧ u.sp = s.sp ∧ (∀ k (_ : k < 16), k ≠ s.sp.val → u.stack[k] = s.stack[k]) ∧ SameRegs s u ∧
      SameMem s u ∧ u.index = s.index ∧ SameTimers s u ∧ u.disp = s.disp ∧ SameKeysHalt s u

/-- `3xnn`, `4xnn` (spec/41_flow.md R124, R125). -/
def Obligations.ImmediateSkips : Prop :=
  ∀ (x : RegIdx) (nn : Byte) (s : State),
    decode (wordXNN 0x3#4 x nn) = .instr (.seImm x nn) ∧ decode (wordXNN 0x4#4 x nn) = .instr (.sneImm x nn) ∧
    (Completes (.seImm x nn) s fun t => t.pc = (if s.reg x = nn then s.pc + 4 else s.pc + 2) ∧ SameButPc s t) ∧
    (Completes (.sneImm x nn) s fun t => t.pc = (if s.reg x ≠ nn then s.pc + 4 else s.pc + 2) ∧ SameButPc s t)

/-- `5xy0`, `9xy0` (spec/41_flow.md R126, R127). -/
def Obligations.RegisterSkips : Prop :=
  ∀ (x y : RegIdx) (s : State),
    decode (wordXYN 0x5#4 x y 0x0#4) = .instr (.seReg x y) ∧ decode (wordXYN 0x9#4 x y 0x0#4) = .instr (.sneReg x y) ∧
    (Completes (.seReg x y) s fun t => t.pc = (if s.reg x = s.reg y then s.pc + 4 else s.pc + 2) ∧ SameButPc s t) ∧
    (Completes (.sneReg x y) s fun t => t.pc = (if s.reg x ≠ s.reg y then s.pc + 4 else s.pc + 2) ∧ SameButPc s t)

/-- `Bnnn` (spec/41_flow.md R128): the exact sum with V0, whatever the third nibble. -/
def Obligations.JumpOffsetAddsV0 : Prop :=
  ∀ (nnn : Addr12) (s : State),
    decode (wordNNN 0xB#4 nnn) = .instr (.jpV0 nnn) ∧
    Completes (.jpV0 nnn) s fun t => t.pc.toNat = nnn.toNat + (s.reg 0x0#4).toNat ∧ SameButPc s t

/-! ## Register loads and the ALU -/

/-- `6xnn` (spec/42_alu.md R135). -/
def Obligations.LoadImmediate : Prop :=
  ∀ (x : RegIdx) (nn : Byte) (s : State),
    decode (wordXNN 0x6#4 x nn) = .instr (.ldImm x nn) ∧
    Completes (.ldImm x nn) s fun t => t.reg x = nn ∧ OnlyReg x s t

/-- `7xnn` (spec/42_alu.md R136): wraps, and VF changes only as the destination. -/
def Obligations.AddImmediateWrapsWithoutFlag : Prop :=
  ∀ (x : RegIdx) (nn : Byte) (s : State),
    decode (wordXNN 0x7#4 x nn) = .instr (.addImm x nn) ∧
    Completes (.addImm x nn) s fun t =>
      (t.reg x).toNat = ((s.reg x).toNat + nn.toNat) % 256 ∧ OnlyReg x s t

/-- `8xy0` to `8xy3` (spec/42_alu.md R137 to R140): no flag. -/
def Obligations.CopyAndLogicWithoutFlag : Prop :=
  ∀ (x y : RegIdx) (s : State),
    decode (wordXYN 0x8#4 x y 0x0#4) = .instr (.ldReg x y) ∧ decode (wordXYN 0x8#4 x y 0x1#4) = .instr (.orReg x y) ∧
    decode (wordXYN 0x8#4 x y 0x2#4) = .instr (.andReg x y) ∧ decode (wordXYN 0x8#4 x y 0x3#4) = .instr (.xorReg x y) ∧
    (Completes (.ldReg x y) s fun t => t.reg x = s.reg y ∧ OnlyReg x s t) ∧
    (Completes (.orReg x y) s fun t => t.reg x = s.reg x ||| s.reg y ∧ OnlyReg x s t) ∧
    (Completes (.andReg x y) s fun t => t.reg x = s.reg x &&& s.reg y ∧ OnlyReg x s t) ∧
    (Completes (.xorReg x y) s fun t => t.reg x = s.reg x ^^^ s.reg y ∧ OnlyReg x s t)

/-- `8xy4` with a destination other than VF (spec/42_alu.md R141); `FlagOperationsOnVf` states the other form. -/
def Obligations.AddRegistersWithCarry : Prop :=
  ∀ (x y : RegIdx) (s : State),
    decode (wordXYN 0x8#4 x y 0x4#4) = .instr (.addReg x y) ∧
    (x ≠ VF → Completes (.addReg x y) s fun t =>
      (t.reg x).toNat = ((s.reg x).toNat + (s.reg y).toNat) % 256 ∧
      (t.reg VF).toNat = (if 255 < (s.reg x).toNat + (s.reg y).toNat then 1 else 0) ∧ OnlyRegAndFlag x s t)

/-- `8xy5`, `8xy7` with a destination other than VF (spec/42_alu.md R142, R144): VF is 1 for no borrow. -/
def Obligations.SubtractRegistersWithNoBorrow : Prop :=
  ∀ (x y : RegIdx) (s : State),
    decode (wordXYN 0x8#4 x y 0x5#4) = .instr (.subReg x y) ∧ decode (wordXYN 0x8#4 x y 0x7#4) = .instr (.subnReg x y) ∧
    (x ≠ VF →
      (Completes (.subReg x y) s fun t =>
        ((t.reg x).toNat : Int) = ((s.reg x).toNat - (s.reg y).toNat : Int) % 256 ∧
        (t.reg VF).toNat = (if (s.reg y).toNat ≤ (s.reg x).toNat then 1 else 0) ∧ OnlyRegAndFlag x s t) ∧
      (Completes (.subnReg x y) s fun t =>
        ((t.reg x).toNat : Int) = ((s.reg y).toNat - (s.reg x).toNat : Int) % 256 ∧
        (t.reg VF).toNat = (if (s.reg x).toNat ≤ (s.reg y).toNat then 1 else 0) ∧ OnlyRegAndFlag x s t))

/-- `8xy6`, `8xyE` with a destination other than VF (spec/42_alu.md R143, R145): Vx is shifted in place, whatever y. -/
def Obligations.ShiftsInPlace : Prop :=
  ∀ (x y : RegIdx) (s : State),
    decode (wordXYN 0x8#4 x y 0x6#4) = .instr (.shr x y) ∧ decode (wordXYN 0x8#4 x y 0xE#4) = .instr (.shl x y) ∧
    (x ≠ VF →
      (Completes (.shr x y) s fun t =>
        (t.reg x).toNat = (s.reg x).toNat / 2 ∧ (t.reg VF).toNat = (s.reg x).toNat % 2 ∧ OnlyRegAndFlag x s t) ∧
      (Completes (.shl x y) s fun t =>
        (t.reg x).toNat = (s.reg x).toNat * 2 % 256 ∧ (t.reg VF).toNat = (s.reg x).toNat / 128 ∧
        OnlyRegAndFlag x s t))

/-- The five flag-writing instructions with VF as their destination (spec/42_alu.md R148), under the setting
`clause_order` in force (log entry 3): the flag for the additions and subtractions, the shifted value for the shifts.
Then what the write of a result and a flag gives VF under the other settings, the draw of `any` being log entry 5, and
that with another destination the flag overwrites VF under every setting. -/
def Obligations.FlagOperationsOnVf : Prop :=
  ∀ (y : RegIdx) (s : State),
    (Completes (.addReg VF y) s fun t => OnlyReg VF s t ∧
      (t.reg VF).toNat = if 255 < (s.reg VF).toNat + (s.reg y).toNat then 1 else 0) ∧
    (Completes (.subReg VF y) s fun t => OnlyReg VF s t ∧
      (t.reg VF).toNat = if (s.reg y).toNat ≤ (s.reg VF).toNat then 1 else 0) ∧
    (Completes (.subnReg VF y) s fun t => OnlyReg VF s t ∧
      (t.reg VF).toNat = if (s.reg VF).toNat ≤ (s.reg y).toNat then 1 else 0) ∧
    (Completes (.shr VF y) s fun t => OnlyReg VF s t ∧ (t.reg VF).toNat = (s.reg VF).toNat / 2) ∧
    (Completes (.shl VF y) s fun t => OnlyReg VF s t ∧ (t.reg VF).toNat = (s.reg VF).toNat * 2 % 256) ∧
    ∀ o r f, (s.writeWithFlag .flagLast o VF r f).reg VF = f ∧
      (s.writeWithFlag .any o VF r f).reg VF = s.freeByte ∧
      ∀ p x, x ≠ VF → (s.writeWithFlag p o x r f).reg VF = f ∧ (s.writeWithFlag p o x r f).reg x = r

/-- `Cxnn` (spec/42_alu.md R146): the free byte of this execution, masked, whatever that byte is; the next execution
takes another draw. Draws are numbered by the model's own counter (log entry 5). -/
def Obligations.RandomIsAFreeByteMasked : Prop :=
  ∀ (x : RegIdx) (nn : Byte) (s : State),
    decode (wordXNN 0xC#4 x nn) = .instr (.rnd x nn) ∧
    Completes (.rnd x nn) s fun t =>
      t.reg x = Config.freeByte s.draws &&& nn ∧ t.reg x &&& ~~~nn = 0 ∧ t.draws = s.draws + 1 ∧ OnlyReg x s t

/-! ## Index register and memory -/

/-- `Annn` (spec/43_index_memory.md R155). -/
def Obligations.SetIndex : Prop :=
  ∀ (nnn : Addr12) (s : State),
    decode (wordNNN 0xA#4 nnn) = .instr (.ldIndex nnn) ∧
    Completes (.ldIndex nnn) s fun t => t.index.toNat = nnn.toNat ∧ OnlyIndex s t

/-- `Fx1E` (spec/43_index_memory.md R156): 16-bit wraparound, no flag, no fault. -/
def Obligations.AddIndexWrapsAtSixteenBits : Prop :=
  ∀ (x : RegIdx) (s : State),
    decode (wordXNN 0xF#4 x 0x1E#8) = .instr (.addIndex x) ∧
    Completes (.addIndex x) s fun t =>
      t.index.toNat = (s.index.toNat + (s.reg x).toNat) % 65536 ∧ OnlyIndex s t

/-- `Fx29` (spec/43_index_memory.md R157). -/
def Obligations.FontAddressOfLowDigit : Prop :=
  ∀ (x : RegIdx) (s : State),
    decode (wordXNN 0xF#4 x 0x29#8) = .instr (.ldFont x) ∧
    Completes (.ldFont x) s fun t =>
      t.index.toNat = 5 * ((s.reg x).toNat % 16) ∧ t.index.toNat ≤ 0x04B ∧ OnlyIndex s t

/-- `Fx33` (spec/43_index_memory.md R158): three digits at I where the bytes may be stored to; else the fault of the
lowest failing address, with nothing written. -/
def Obligations.StoreBcdWritesThreeDigits : Prop :=
  ∀ (x : RegIdx) (s : State),
    decode (wordXNN 0xF#4 x 0x33#8) = .instr (.ldBcd x) ∧
    (s.CanStore 3 → Completes (.ldBcd x) s fun t =>
      (t.mem.read (s.effAddr 0)).toNat = (s.reg x).toNat / 100 ∧
      (t.mem.read (s.effAddr 1)).toNat = (s.reg x).toNat / 10 % 10 ∧
      (t.mem.read (s.effAddr 2)).toNat = (s.reg x).toNat % 10 ∧ OnlyStored 3 s t) ∧
    (fontWrite = .fault → s.effAddr 0 ≤ 0x04F → TakesFault (.ldBcd x) s (.fontWrite (s.effAddr 0))) ∧
    (0xFFF < s.effAddr 2 → TakesFault (.ldBcd x) s (.outOfRangeAccess (max (s.effAddr 0) 0x1000)))

/-- `Fx55` (spec/43_index_memory.md R159): V0 to Vx at I where the bytes may be stored to, and I is not changed; else the
fault of the lowest failing address, with nothing written. -/
def Obligations.StoreRegistersWritesBlock : Prop :=
  ∀ (x : RegIdx) (s : State),
    decode (wordXNN 0xF#4 x 0x55#8) = .instr (.storeRegs x) ∧
    (s.CanStore (x.toNat + 1) → Completes (.storeRegs x) s fun t =>
      (∀ r : RegIdx, r.toNat ≤ x.toNat → t.mem.read (s.effAddr r.toNat) = s.reg r) ∧ OnlyStored (x.toNat + 1) s t) ∧
    (fontWrite = .fault → s.effAddr 0 ≤ 0x04F → TakesFault (.storeRegs x) s (.fontWrite (s.effAddr 0))) ∧
    (0xFFF < s.effAddr x.toNat → TakesFault (.storeRegs x) s (.outOfRangeAccess (max (s.effAddr 0) 0x1000)))

/-- `Fx65` (spec/43_index_memory.md R160): the block at I into V0 to Vx where the bytes may be read, and I is not
changed; else the fault of the lowest address above 0xFFF, with nothing written. -/
def Obligations.LoadRegistersReadsBlock : Prop :=
  ∀ (x : RegIdx) (s : State),
    decode (wordXNN 0xF#4 x 0x65#8) = .instr (.loadRegs x) ∧
    (s.CanRead (x.toNat + 1) → Completes (.loadRegs x) s fun t =>
      (∀ r : RegIdx, r.toNat ≤ x.toNat → t.reg r = s.mem.read (s.effAddr r.toNat)) ∧ t.pc = s.pc + 2 ∧
      SameRegsExcept (fun r => r.toNat ≤ x.toNat) s t ∧ SameButRegsPc s t) ∧
    (0xFFF < s.effAddr x.toNat → TakesFault (.loadRegs x) s (.outOfRangeAccess (max (s.effAddr 0) 0x1000)))

/-- A register block stored and loaded back at the same I gives every register its value again (spec/43_index_memory.md
R159, R160). -/
def Obligations.LoadAfterStoreRestoresRegisters : Prop :=
  ∀ (x : RegIdx) (s : State), s.CanStore (x.toNat + 1) → Completes (.storeRegs x) s fun t =>
    ∀ v : Vector Byte 16, Completes (.loadRegs x) (t.setRegs v) fun u => ∀ r : RegIdx, r.toNat ≤ x.toNat → u.reg r = s.reg r

/-! ## Display -/

/-- `00E0` (spec/44_display.md R171). -/
def Obligations.ClearScreenUnlightsEveryCell : Prop :=
  decode 0x00E0#16 = .instr .cls ∧
  ∀ s : State, Completes .cls s fun t =>
    (∀ p, lit t.disp p = false) ∧ t.pc = s.pc + 2 ∧ SameRegs s t ∧ SameMem s t ∧ t.index = s.index ∧ SameStack s t ∧
    SameTimers s t ∧ SameKeysHalt s t

/-- `Dxyn` (spec/44_display.md R172, R173): where its sprite may be read (with n = 0 nothing is), a cell is lit after the
draw exactly when `lit before XOR sprite bit`, wrapping at the edges, and VF is 1 exactly when a lit cell was unset; else
the fault of the lowest address above 0xFFF, with no cell and no flag written. Bit 7 leftmost and row r at I + r are
general knowledge, by the spec's own words (D34, log entry 10). -/
def Obligations.DrawXorsSpriteWithCollision : Prop :=
  ∀ (x y : RegIdx) (n : Nibble) (s : State),
    decode (wordXYN 0xD#4 x y n) = .instr (.drw x y n) ∧
    (n = 0 ∨ s.CanRead n.toNat → Completes (.drw x y n) s fun t =>
      (∀ p, s.SpriteCovers x y n p → lit t.disp p = !lit s.disp p) ∧
      (∀ p, ¬ s.SpriteCovers x y n p → lit t.disp p = lit s.disp p) ∧
      ((t.reg VF = 1 ∧ ∃ p, lit s.disp p = true ∧ lit t.disp p = false) ∨
        (t.reg VF = 0 ∧ ∀ p, lit s.disp p = true → lit t.disp p = true)) ∧
      t.pc = s.pc + 2 ∧ SameRegsExcept (fun r => r = VF) s t ∧ SameMem s t ∧ t.index = s.index ∧ SameStack s t ∧
      SameTimers s t ∧ SameKeysHalt s t) ∧
    (0 < n.toNat → 0xFFF < s.effAddr (n.toNat - 1) →
      TakesFault (.drw x y n) s (.outOfRangeAccess (max (s.effAddr 0) 0x1000)))

/-- Drawing twice restores the display (spec/44_display.md R174): the second draw, from the
state the first one leaves, brings every cell back, and VF is 1 exactly when some sprite cell was unlit before the first. -/
def Obligations.DrawTwiceRestoresDisplay : Prop :=
  ∀ (x y : RegIdx) (n : Nibble) (s : State), x ≠ VF → y ≠ VF → n = 0 ∨ s.CanRead n.toNat →
    Completes (.drw x y n) s fun t =>
      (t.reg VF = 1 ↔ ∃ p, s.SpriteCovers x y n p ∧ lit s.disp p = true) ∧
      Completes (.drw x y n) t fun u =>
        u.disp = s.disp ∧ (u.reg VF = 1 ↔ ∃ p, s.SpriteCovers x y n p ∧ lit s.disp p = false)

/-! ## Keys and timers -/

/-- `Ex9E`, `ExA1` (spec/45_timers_keys.md R180, R181). -/
def Obligations.KeySkips : Prop :=
  ∀ (x : RegIdx) (s : State),
    decode (wordXNN 0xE#4 x 0x9E#8) = .instr (.skp x) ∧ decode (wordXNN 0xE#4 x 0xA1#8) = .instr (.sknp x) ∧
    (∀ h : (s.reg x).toNat < 16,
      (Completes (.skp x) s fun t =>
        t.pc = (if s.key[(s.reg x).toNat] = true then s.pc + 4 else s.pc + 2) ∧ SameButPc s t) ∧
      (Completes (.sknp x) s fun t =>
        t.pc = (if s.key[(s.reg x).toNat] = false then s.pc + 4 else s.pc + 2) ∧ SameButPc s t)) ∧
    (15 < (s.reg x).toNat →
      TakesFault (.skp x) s (.keyIndexOutOfRange (s.reg x)) ∧ TakesFault (.sknp x) s (.keyIndexOutOfRange (s.reg x)))

/-- `Fx07` (spec/45_timers_keys.md R182). -/
def Obligations.LoadDelayReadsTimer : Prop :=
  ∀ (x : RegIdx) (s : State),
    decode (wordXNN 0xF#4 x 0x07#8) = .instr (.ldFromDelay x) ∧
    Completes (.ldFromDelay x) s fun t => t.reg x = s.dt ∧ OnlyReg x s t

/-- `Fx0A` (spec/45_timers_keys.md R183): the lowest pressed key, or the same instruction again with nothing written. -/
def Obligations.WaitKeyTakesLowestOrWaits : Prop :=
  ∀ (x : RegIdx) (s : State),
    decode (wordXNN 0xF#4 x 0x0A#8) = .instr (.ldKey x) ∧
    (∀ k (_ : k < 16), s.key[k] = true → (∀ j (_ : j < k), s.key[j] = false) →
      Completes (.ldKey x) s fun t => (t.reg x).toNat = k ∧ OnlyReg x s t) ∧
    ((∀ k (_ : k < 16), s.key[k] = false) → exec (.ldKey x) s = .next s)

/-- `Fx15`, `Fx18` (spec/45_timers_keys.md R184, R185), and the sound output (spec/60_exceptions.md R213). -/
def Obligations.StoreTimers : Prop :=
  ∀ (x : RegIdx) (s : State),
    decode (wordXNN 0xF#4 x 0x15#8) = .instr (.ldDelay x) ∧ decode (wordXNN 0xF#4 x 0x18#8) = .instr (.ldSound x) ∧
    (Completes (.ldDelay x) s fun t =>
      t.dt = s.reg x ∧ t.st = s.st ∧ t.pc = s.pc + 2 ∧ SameRegs s t ∧ SameMem s t ∧ t.index = s.index ∧ SameStack s t ∧
      t.disp = s.disp ∧ SameKeysHalt s t) ∧
    (Completes (.ldSound x) s fun t =>
      t.st = s.reg x ∧ (t.soundActive = true ↔ s.reg x ≠ 0) ∧ t.dt = s.dt ∧ t.pc = s.pc + 2 ∧ SameRegs s t ∧
      SameMem s t ∧ t.index = s.index ∧ SameStack s t ∧ t.disp = s.disp ∧ SameKeysHalt s t)

/-! ## Reset and the host's operations -/

/-- The reset state (spec/10_state.md R36): the font bytes are those of the parameter `FONT` (log entry 1). -/
def Obligations.ResetStateValues : Prop :=
  font.length = 80 ∧ (∀ a (h : a < 80), font[a]? = some (State.reset.mem.read a)) ∧
  (∀ a, 0x050 ≤ a → State.reset.mem.read a = 0) ∧
  (∀ r, State.reset.reg r = 0) ∧ State.reset.index = 0 ∧ State.reset.pc = 0x200 ∧ State.reset.sp = 0 ∧
  (∀ k (_ : k < 16), State.reset.stack[k] = 0) ∧ State.reset.dt = 0 ∧ State.reset.st = 0 ∧
  (∀ k (_ : k < 16), State.reset.key[k] = false) ∧ (∀ p, lit State.reset.disp p = false) ∧ State.reset.halt = none

/-- The model's choice of `FONT` (log entry 1) at reset: the default bytes of spec/20_memory.md R61, six of its rows. -/
def Obligations.DefaultFontRows : Prop :=
  State.reset.mem.readBlock 0x000 5 = [0xF0, 0x90, 0x90, 0x90, 0xF0] ∧
  State.reset.mem.readBlock 0x005 5 = [0x20, 0x60, 0x20, 0x20, 0x70] ∧
  State.reset.mem.readBlock 0x023 5 = [0xF0, 0x10, 0x20, 0x40, 0x40] ∧
  State.reset.mem.readBlock 0x032 5 = [0xF0, 0x90, 0xF0, 0x90, 0x90] ∧
  State.reset.mem.readBlock 0x046 5 = [0xF0, 0x80, 0xF0, 0x80, 0xF0] ∧
  State.reset.mem.readBlock 0x04B 5 = [0xF0, 0x80, 0xF0, 0x80, 0x80]

/-- `reset()` in any state, halted included (spec/70_reset_and_hazards.md R231): the reset state again; the counter of
free values, the model's own, goes on (log entry 5). -/
def Obligations.ResetRestoresInitialState : Prop :=
  newMachine = State.reset ∧
  ∀ s : State, perform .reset s = .next ({ State.reset with draws := s.draws }, .ok)

/-- `load_program` (spec/70_reset_and_hazards.md R232): the buffer at 0x200 and nothing else, or nothing at all where it
is too large. -/
def Obligations.LoadProgramCopiesBuffer : Prop :=
  ∀ (bytes : List Byte) (s : State),
    (bytes.length ≤ 3584 → ∃ t, perform (.loadProgram bytes) s = .next (t, .ok) ∧ t = { s with mem := t.mem } ∧
      (∀ k (h : k < bytes.length), t.mem.read (0x200 + k) = bytes[k]) ∧ SameMemOutside 0x200 bytes.length s t) ∧
    (3584 < bytes.length → perform (.loadProgram bytes) s = .next (s, .error .programTooLarge))

/-- `tick_timers()` (spec/60_exceptions.md R210): both timers, each saturating at 0, and nothing else. -/
def Obligations.TickSaturatesAtZero : Prop :=
  ∀ s : State, ∃ t, perform .tickTimers s = .next (t, .ok) ∧ t = { s with dt := t.dt, st := t.st } ∧
    t.dt.toNat = s.dt.toNat - 1 ∧ t.st.toNat = s.st.toNat - 1

/-- `set_key` (spec/60_exceptions.md R216): the key's state and nothing else; an index above 15 is rejected. -/
def Obligations.SetKeyWritesOneKey : Prop :=
  ∀ (k : Nat) (pressed : Bool) (s : State),
    (k < 16 → ∃ t, perform (.setKey k pressed) s = .next (t, .ok) ∧ t = { s with key := t.key } ∧
      ∀ j (_ : j < 16), t.key[j] = if j = k then pressed else s.key[j]) ∧
    (15 < k → perform (.setKey k pressed) s = .next (s, .error .keyIndexInvalid))

/-- `read_display()` (spec/60_exceptions.md R217): 2048 cells, element `x + 64·y` the cell at column x and row y, and
nothing written. -/
def Obligations.ReadDisplayIsRowMajor : Prop :=
  ∀ s : State, perform .readDisplay s = .next (s, .display s.readDisplay) ∧ s.readDisplay.length = 2048 ∧
    ∀ p : Pixel, s.readDisplay[p.1.val + 64 * p.2.val]? = some (lit s.disp p)
end

