-- ==== Sys2Proof/Laws/Decode.lean ====
section
/-! SUPPORT. The fields of an assembled word are the ones put in, a word is assembled from its fields, and the rows of
the opcode map do not overlap (spec/30_encoding.md R81, R87). -/

namespace Sys2Proof

/-! ## Values of words -/

theorem toNat_wordNNN (f : BitVec 4) (nnn : Addr12) : (wordNNN f nnn).toNat = f.toNat * 4096 + nnn.toNat := by
  have h : (wordNNN f nnn).toNat = f.toNat <<< 12 ||| nnn.toNat := BitVec.toNat_append f nnn
  rw [h, ← Nat.shiftLeft_add_eq_or_of_lt nnn.isLt, Nat.shiftLeft_eq]

theorem toNat_wordXNN (f : BitVec 4) (x : RegIdx) (nn : Byte) :
    (wordXNN f x nn).toNat = f.toNat * 4096 + x.toNat * 256 + nn.toNat := by
  have h : (wordXNN f x nn).toNat = (f ++ x).toNat <<< 8 ||| nn.toNat := BitVec.toNat_append (f ++ x) nn
  rw [h, ← Nat.shiftLeft_add_eq_or_of_lt nn.isLt, BitVec.toNat_append, ← Nat.shiftLeft_add_eq_or_of_lt x.isLt,
    Nat.shiftLeft_eq, Nat.shiftLeft_eq]
  omega

theorem toNat_wordXYN (f : BitVec 4) (x y : RegIdx) (n : Nibble) :
    (wordXYN f x y n).toNat = f.toNat * 4096 + x.toNat * 256 + y.toNat * 16 + n.toNat := by
  have h : (wordXYN f x y n).toNat = (f ++ x ++ y).toNat <<< 4 ||| n.toNat := BitVec.toNat_append (f ++ x ++ y) n
  rw [h, ← Nat.shiftLeft_add_eq_or_of_lt n.isLt, BitVec.toNat_append, ← Nat.shiftLeft_add_eq_or_of_lt y.isLt,
    BitVec.toNat_append, ← Nat.shiftLeft_add_eq_or_of_lt x.isLt, Nat.shiftLeft_eq, Nat.shiftLeft_eq, Nat.shiftLeft_eq]
  omega

theorem toNat_wordFamily (w : Word) : (wordFamily w).toNat = w.toNat / 4096 := by
  have := w.isLt
  simp only [wordFamily, BitVec.extractLsb'_toNat, Nat.shiftRight_eq_div_pow]
  omega

theorem toNat_fieldX (w : Word) : (fieldX w).toNat = w.toNat / 256 % 16 := by
  simp [fieldX, BitVec.extractLsb'_toNat, Nat.shiftRight_eq_div_pow]

theorem toNat_fieldY (w : Word) : (fieldY w).toNat = w.toNat / 16 % 16 := by
  simp [fieldY, BitVec.extractLsb'_toNat, Nat.shiftRight_eq_div_pow]

theorem toNat_fieldN (w : Word) : (fieldN w).toNat = w.toNat % 16 := by
  simp [fieldN, BitVec.extractLsb'_toNat]

theorem toNat_fieldNN (w : Word) : (fieldNN w).toNat = w.toNat % 256 := by
  simp [fieldNN, BitVec.extractLsb'_toNat]

theorem toNat_fieldNNN (w : Word) : (fieldNNN w).toNat = w.toNat % 4096 := by
  simp [fieldNNN, BitVec.extractLsb'_toNat]

theorem toNat_wordOfBytes (hi lo : Byte) : (wordOfBytes hi lo).toNat = hi.toNat * 256 + lo.toNat := by
  have h : (wordOfBytes hi lo).toNat = hi.toNat <<< 8 ||| lo.toNat := BitVec.toNat_append hi lo
  rw [h, ← Nat.shiftLeft_add_eq_or_of_lt lo.isLt, Nat.shiftLeft_eq]

/-! ## Fields of assembled words -/

section
variable (f : BitVec 4) (x y : RegIdx) (n : Nibble) (nn : Byte) (nnn : Addr12)

@[simp] theorem wordFamily_wordNNN : wordFamily (wordNNN f nnn) = f :=
  BitVec.eq_of_toNat_eq (by have := nnn.isLt; rw [toNat_wordFamily, toNat_wordNNN]; omega)
@[simp] theorem fieldNNN_wordNNN : fieldNNN (wordNNN f nnn) = nnn :=
  BitVec.eq_of_toNat_eq (by have := nnn.isLt; rw [toNat_fieldNNN, toNat_wordNNN]; omega)
@[simp] theorem wordFamily_wordXNN : wordFamily (wordXNN f x nn) = f :=
  BitVec.eq_of_toNat_eq (by have := x.isLt; have := nn.isLt; rw [toNat_wordFamily, toNat_wordXNN]; omega)
@[simp] theorem fieldX_wordXNN : fieldX (wordXNN f x nn) = x :=
  BitVec.eq_of_toNat_eq (by have := x.isLt; have := nn.isLt; rw [toNat_fieldX, toNat_wordXNN]; omega)
@[simp] theorem fieldNN_wordXNN : fieldNN (wordXNN f x nn) = nn :=
  BitVec.eq_of_toNat_eq (by have := nn.isLt; rw [toNat_fieldNN, toNat_wordXNN]; omega)
@[simp] theorem wordFamily_wordXYN : wordFamily (wordXYN f x y n) = f :=
  BitVec.eq_of_toNat_eq (by
    have := x.isLt; have := y.isLt; have := n.isLt; rw [toNat_wordFamily, toNat_wordXYN]; omega)
@[simp] theorem fieldX_wordXYN : fieldX (wordXYN f x y n) = x :=
  BitVec.eq_of_toNat_eq (by
    have := x.isLt; have := y.isLt; have := n.isLt; rw [toNat_fieldX, toNat_wordXYN]; omega)
@[simp] theorem fieldY_wordXYN : fieldY (wordXYN f x y n) = y :=
  BitVec.eq_of_toNat_eq (by have := y.isLt; have := n.isLt; rw [toNat_fieldY, toNat_wordXYN]; omega)
@[simp] theorem fieldN_wordXYN : fieldN (wordXYN f x y n) = n :=
  BitVec.eq_of_toNat_eq (by have := n.isLt; rw [toNat_fieldN, toNat_wordXYN]; omega)

end

/-! ## A word is assembled from its fields -/

theorem wordNNN_fields (w : Word) : wordNNN (wordFamily w) (fieldNNN w) = w :=
  BitVec.eq_of_toNat_eq (by rw [toNat_wordNNN, toNat_wordFamily, toNat_fieldNNN]; omega)

theorem wordXNN_fields (w : Word) : wordXNN (wordFamily w) (fieldX w) (fieldNN w) = w :=
  BitVec.eq_of_toNat_eq (by rw [toNat_wordXNN, toNat_wordFamily, toNat_fieldX, toNat_fieldNN]; omega)

theorem wordXYN_fields (w : Word) : wordXYN (wordFamily w) (fieldX w) (fieldY w) (fieldN w) = w :=
  BitVec.eq_of_toNat_eq (by
    rw [toNat_wordXYN, toNat_wordFamily, toNat_fieldX, toNat_fieldY, toNat_fieldN]; omega)

/-- A word laid out in memory order reads back as itself. -/
theorem wordOfBytes_bytesOfWord (w : Word) : wordOfBytes (w.extractLsb' 8 8) (w.extractLsb' 0 8) = w := by
  apply BitVec.eq_of_toNat_eq
  have := w.isLt
  rw [toNat_wordOfBytes]
  simp only [BitVec.extractLsb'_toNat, Nat.shiftRight_eq_div_pow]
  omega

/-! ## Decode, family by family -/

theorem decode_family0 {w : Word} (h : wordFamily w = 0x0#4) : decode w = decodeFamily0 w := by
  simp [decode, h]

theorem decode_family1 {w : Word} (h : wordFamily w = 0x1#4) : decode w = .instr (.jp (fieldNNN w)) := by
  simp [decode, h]

theorem decode_family2 {w : Word} (h : wordFamily w = 0x2#4) : decode w = .instr (.call (fieldNNN w)) := by
  simp [decode, h]

theorem decode_family3 {w : Word} (h : wordFamily w = 0x3#4) : decode w = .instr (.seImm (fieldX w) (fieldNN w)) := by
  simp [decode, h]

theorem decode_family4 {w : Word} (h : wordFamily w = 0x4#4) : decode w = .instr (.sneImm (fieldX w) (fieldNN w)) := by
  simp [decode, h]

theorem decode_family5 {w : Word} (h : wordFamily w = 0x5#4) : decode w = decodeSkipReg w (.seReg (fieldX w) (fieldY w)) := by
  simp [decode, h]

theorem decode_family6 {w : Word} (h : wordFamily w = 0x6#4) : decode w = .instr (.ldImm (fieldX w) (fieldNN w)) := by
  simp [decode, h]

theorem decode_family7 {w : Word} (h : wordFamily w = 0x7#4) : decode w = .instr (.addImm (fieldX w) (fieldNN w)) := by
  simp [decode, h]

theorem decode_family8 {w : Word} (h : wordFamily w = 0x8#4) : decode w = decodeFamily8 w := by
  simp [decode, h]

theorem decode_family9 {w : Word} (h : wordFamily w = 0x9#4) : decode w = decodeSkipReg w (.sneReg (fieldX w) (fieldY w)) := by
  simp [decode, h]

theorem decode_familyA {w : Word} (h : wordFamily w = 0xA#4) : decode w = .instr (.ldIndex (fieldNNN w)) := by
  simp [decode, h]

theorem decode_familyB {w : Word} (h : wordFamily w = 0xB#4) : decode w = .instr (.jpV0 (fieldNNN w)) := by
  simp [decode, h]

theorem decode_familyC {w : Word} (h : wordFamily w = 0xC#4) : decode w = .instr (.rnd (fieldX w) (fieldNN w)) := by
  simp [decode, h]

theorem decode_familyD {w : Word} (h : wordFamily w = 0xD#4) : decode w = .instr (.drw (fieldX w) (fieldY w) (fieldN w)) := by
  simp [decode, h]

theorem decode_familyE {w : Word} (h : wordFamily w = 0xE#4) : decode w = decodeFamilyE w := by
  simp [decode, h]

theorem decode_familyF {w : Word} (h : wordFamily w = 0xF#4) : decode w = decodeFamilyF w := by
  simp [decode, h]

/-- A nibble is one of sixteen values. -/
theorem nibble_cases (f : BitVec 4) :
    f = 0x0#4 ∨ f = 0x1#4 ∨ f = 0x2#4 ∨ f = 0x3#4 ∨ f = 0x4#4 ∨ f = 0x5#4 ∨ f = 0x6#4 ∨ f = 0x7#4 ∨
    f = 0x8#4 ∨ f = 0x9#4 ∨ f = 0xA#4 ∨ f = 0xB#4 ∨ f = 0xC#4 ∨ f = 0xD#4 ∨ f = 0xE#4 ∨ f = 0xF#4 := by
  revert f; decide

/-- No two rows of the opcode map admit a common word (R87). -/
theorem opcodeRows_disjoint : opcodeRows.Pairwise (fun r q => rowsOverlap r q = false) := by decide

end Sys2Proof
end

