-- ==== Sys2Proof/Laws/Memory.lean ====
section
/-! SUPPORT. Memory: a read after a write, the reads and the canonical form of every memory operation, and what the
access checks say. The read laws hold of every list, canonical or not. -/

namespace Sys2Proof.Machine

/-! ## Reads -/

@[simp] theorem Memory.read_nil (a : Nat) : Memory.read [] a = Memory.atReset a := rfl

theorem Memory.read_insertCell_same (m : Memory) (c : Host.Cell) (h : ∀ d ∈ m, d.1 ≠ c.1) :
    (Memory.insertCell m c).read c.1 = c.2 := by
  induction m with
  | nil => simp [Memory.insertCell, Memory.read]
  | cons d m ih =>
    have hd : d.1 ≠ c.1 := h d (by simp)
    have ih := ih fun e he => h e (by simp [he])
    simp only [Memory.insertCell]
    split
    · simp [Memory.read]
    · simpa [Memory.read, hd] using ih

theorem Memory.read_insertCell_ne (m : Memory) (c : Host.Cell) {a : Nat} (h : a ≠ c.1) :
    (Memory.insertCell m c).read a = m.read a := by
  have hc : ¬ c.1 = a := fun e => h e.symm
  induction m with
  | nil => simp [Memory.insertCell, Memory.read, hc]
  | cons d m ih =>
    simp only [Memory.insertCell]
    split
    · simp [Memory.read, hc]
    · by_cases hd : d.1 = a
      · simp [Memory.read, hd]
      · simpa [Memory.read, hd] using ih

theorem Memory.read_erase_same (m : Memory) (a : Nat) :
    Memory.read (m.filter (fun c => c.1 != a)) a = Memory.atReset a := by
  have h : (m.filter (fun c => c.1 != a)).find? (fun c => c.1 == a) = none := by
    rw [List.find?_eq_none]
    intro c hc
    simpa using (List.mem_filter.mp hc).2
  simp only [Memory.read, h]

theorem Memory.read_erase_ne (m : Memory) {a b : Nat} (h : b ≠ a) :
    Memory.read (m.filter (fun c => c.1 != a)) b = m.read b := by
  simp only [Memory.read]
  congr 1
  rw [List.find?_filter]
  congr 1
  funext c
  by_cases hc : c.1 = b <;> simp [hc, h]

/-- A read after a write to the same address gives the byte written. -/
@[simp] theorem Memory.read_write_same (m : Memory) (a : Nat) (b : Byte) : (m.write a b).read a = b := by
  simp only [Memory.write]
  split
  · next h => rw [Memory.read_erase_same, h]
  · exact Memory.read_insertCell_same _ (a, b) fun d hd => by simpa using (List.mem_filter.mp hd).2

/-- A write leaves every other address alone. -/
theorem Memory.read_write_ne (m : Memory) {a c : Nat} (b : Byte) (h : c ≠ a) : (m.write a b).read c = m.read c := by
  simp only [Memory.write]
  split
  · exact Memory.read_erase_ne m h
  · rw [Memory.read_insertCell_ne _ (a, b) h, Memory.read_erase_ne m h]

theorem Memory.read_write (m : Memory) (a c : Nat) (b : Byte) :
    (m.write a b).read c = if c = a then b else m.read c := by
  split
  · next h => rw [h, Memory.read_write_same]
  · next h => exact Memory.read_write_ne m b h

/-! ## Blocks -/

/-- Everything a block write can do to a read: inside the block it gives the block's byte, outside nothing changes. -/
theorem Memory.read_writeBlock (m : Memory) (a : Nat) (bs : List Byte) (c : Nat) :
    (m.writeBlock a bs).read c = if a ≤ c ∧ c < a + bs.length then bs.getD (c - a) 0 else m.read c := by
  induction bs generalizing m a with
  | nil =>
    have h : ¬ (a ≤ c ∧ c < a + 0) := by omega
    simp only [Memory.writeBlock, List.length_nil, h, if_false]
  | cons b bs ih =>
    rw [Memory.writeBlock, ih, Memory.read_write]
    by_cases hca : c = a
    · subst hca
      simp
    · by_cases hin : a + 1 ≤ c ∧ c < a + 1 + bs.length
      · have h2 : a ≤ c ∧ c < a + (b :: bs).length := by simp only [List.length_cons]; omega
        have h3 : c - a = c - (a + 1) + 1 := by omega
        rw [if_pos hin, if_pos h2, h3, List.getD_cons_succ]
      · have h2 : ¬ (a ≤ c ∧ c < a + (b :: bs).length) := by simp only [List.length_cons]; omega
        rw [if_neg hin, if_neg h2, if_neg hca]

theorem Memory.read_writeBlock_outside (m : Memory) {a c : Nat} (bs : List Byte) (h : c < a ∨ a + bs.length ≤ c) :
    (m.writeBlock a bs).read c = m.read c := by
  rw [Memory.read_writeBlock, if_neg (by omega)]

theorem Memory.read_writeBlock_inside (m : Memory) (a : Nat) (bs : List Byte) {k : Nat} (h : k < bs.length) :
    (m.writeBlock a bs).read (a + k) = bs[k] := by
  rw [Memory.read_writeBlock, if_pos (by omega), Nat.add_sub_cancel_left, List.getD_eq_getElem _ _ h]

@[simp] theorem Memory.length_readBlock (m : Memory) (a n : Nat) : (m.readBlock a n).length = n := by
  simp [Memory.readBlock]

@[simp] theorem Memory.getElem_readBlock (m : Memory) (a n k : Nat) (h : k < (m.readBlock a n).length) :
    (m.readBlock a n)[k] = m.read (a + k) := by
  simp [Memory.readBlock]

/-! ## The canonical form -/

theorem Memory.mem_insertCell {m : Memory} {c d : Host.Cell} : d ∈ Memory.insertCell m c ↔ d = c ∨ d ∈ m := by
  induction m with
  | nil => simp [Memory.insertCell]
  | cons e m ih =>
    simp only [Memory.insertCell]
    split <;> simp [ih]
    tauto

theorem Memory.wf_nil : Memory.wf [] := by simp [Memory.wf]

theorem Memory.wf_erase {m : Memory} (h : m.wf) (a : Nat) : Memory.wf (m.filter (fun c => c.1 != a)) :=
  ⟨h.1.filter _, fun c hc => h.2 c (List.mem_filter.mp hc).1⟩

theorem Memory.pairwise_insertCell {m : Memory} {c : Host.Cell} (h : m.Pairwise (fun c d => c.1 < d.1))
    (hc : ∀ d ∈ m, d.1 ≠ c.1) : (Memory.insertCell m c).Pairwise (fun c d => c.1 < d.1) := by
  induction m with
  | nil => simp [Memory.insertCell]
  | cons d m ih =>
    have hd : d.1 ≠ c.1 := hc d (by simp)
    obtain ⟨hdm, hm⟩ := List.pairwise_cons.mp h
    simp only [Memory.insertCell]
    split
    · next hlt =>
      refine List.pairwise_cons.mpr ⟨fun e he => ?_, h⟩
      rcases List.mem_cons.mp he with rfl | he
      · exact hlt
      · exact hlt.trans (hdm e he)
    · next hlt =>
      refine List.pairwise_cons.mpr ⟨fun e he => ?_, ih hm fun e he => hc e (by simp [he])⟩
      rcases Memory.mem_insertCell.mp he with rfl | he
      · omega
      · exact hdm e he

/-- A write inside the address space keeps the canonical form. -/
theorem Memory.wf_write {m : Memory} (h : m.wf) {a : Nat} (b : Byte) (ha : a < Config.memSize) : (m.write a b).wf := by
  simp only [Memory.write]
  split
  · exact Memory.wf_erase h a
  · next hb =>
    have he := Memory.wf_erase h a
    refine ⟨Memory.pairwise_insertCell he.1 fun d hd => by simpa using (List.mem_filter.mp hd).2, fun c hc => ?_⟩
    rcases Memory.mem_insertCell.mp hc with rfl | hc
    · exact ⟨ha, hb⟩
    · exact he.2 c hc

/-- A block write inside the address space keeps the canonical form. -/
theorem Memory.wf_writeBlock {m : Memory} (h : m.wf) {a : Nat} (bs : List Byte) (ha : a + bs.length ≤ Config.memSize) :
    (m.writeBlock a bs).wf := by
  induction bs generalizing m a with
  | nil => exact h
  | cons b bs ih =>
    simp only [List.length_cons] at ha
    exact ih (Memory.wf_write h b (by omega)) (by omega)

/-- Every memory operation keeps the canonical form. -/
theorem Memory.operations_keep_wf {m : Memory} (h : m.wf) :
    (∀ a b, a < Config.memSize → (m.write a b).wf) ∧
    (∀ a bs, a + bs.length ≤ Config.memSize → (m.writeBlock a bs).wf) :=
  ⟨fun _ b => Memory.wf_write h b, fun _ bs => Memory.wf_writeBlock h bs⟩

/-! ## Access checks -/

theorem readFault_eq_none {a : Nat} : readFault a = none ↔ a ≤ 0xFFF := by
  unfold readFault; split <;> simp <;> omega

theorem writeFault_eq_none {p : FontWritePolicy} {a : Nat} :
    writeFault p a = none ↔ a ≤ 0xFFF ∧ (p = .fault → 0x04F < a) := by
  unfold writeFault
  split
  · simp; omega
  · split
    · next h => simp [h.2]; omega
    · next h => simp only [true_iff]; exact ⟨by omega, fun hp => by simp [hp] at h; omega⟩

theorem blockFault_eq_none {check : Nat → Option Fault} {a n : Nat} :
    blockFault check a n = none ↔ ∀ k, k < n → check (a + k) = none := by
  simp [blockFault]

/-- The fault a block check reports is that of the lowest failing address. -/
theorem blockFault_eq_some {check : Nat → Option Fault} {a n : Nat} {f : Fault} :
    blockFault check a n = some f ↔
      ∃ k, k < n ∧ check (a + k) = some f ∧ ∀ j, j < k → check (a + j) = none := by
  induction n with
  | zero => simp [blockFault]
  | succ n ih =>
    have hs : blockFault check a (n + 1) = (blockFault check a n).or (check (a + n)) := by
      simp only [blockFault, List.range_succ, List.findSome?_append, List.findSome?_cons, List.findSome?_nil]
      cases check (a + n) <;> simp
    rw [hs]
    cases hb : blockFault check a n with
    | none =>
      have hn := blockFault_eq_none.mp hb
      rw [Option.none_or]
      constructor
      · intro h
        exact ⟨n, by omega, h, hn⟩
      · rintro ⟨k, hk, h, -⟩
        obtain rfl | hkn := Nat.eq_or_lt_of_le (Nat.lt_succ_iff.mp hk)
        · exact h
        · simp [hn k hkn] at h
    | some g =>
      have hg : ∃ j, j < n ∧ check (a + j) ≠ none := by
        by_contra hno
        rw [blockFault_eq_none.mpr fun k hk => by_contra fun he => hno ⟨k, hk, he⟩] at hb
        cases hb
      rw [Option.some_or, ← hb, ih]
      constructor
      · rintro ⟨k, hk, h⟩
        exact ⟨k, by omega, h⟩
      · rintro ⟨k, hk, h, hl⟩
        refine ⟨k, ?_, h, hl⟩
        obtain ⟨j, hj, hjs⟩ := hg
        by_contra hnk
        exact hjs (hl j (by omega))

/-- Reading a block faults exactly when it reaches past 0xFFF, at the lowest address there. -/
theorem blockFault_read (a n : Nat) :
    blockFault readFault a n =
      if 0 < n ∧ 0xFFF < a + n - 1 then some (.outOfRangeAccess (max a 0x1000)) else none := by
  split
  · next h =>
    refine blockFault_eq_some.mpr ⟨max a 0x1000 - a, by omega, ?_, fun j hj => readFault_eq_none.mpr (by omega)⟩
    have he : a + (max a 0x1000 - a) = max a 0x1000 := by omega
    have hl : 0xFFF < max a 0x1000 := by omega
    rw [he, readFault, if_pos hl]
  · exact blockFault_eq_none.mpr fun k hk => readFault_eq_none.mpr (by omega)

/-- Storing a block faults at its first byte where that byte is in the protected font, and otherwise exactly when it
reaches past 0xFFF. -/
theorem blockFault_write (p : FontWritePolicy) (a n : Nat) (hn : 0 < n) :
    blockFault (writeFault p) a n =
      if p = .fault ∧ a ≤ 0x04F then some (.fontWrite a)
      else if 0xFFF < a + n - 1 then some (.outOfRangeAccess (max a 0x1000))
      else none := by
  split
  · next h =>
    refine blockFault_eq_some.mpr ⟨0, hn, ?_, fun j hj => by omega⟩
    have h1 : ¬ 0xFFF < a + 0 := by omega
    have h2 : a + 0 ≤ 0x04F ∧ p = .fault := ⟨by omega, h.1⟩
    rw [writeFault, if_neg h1, if_pos h2, Nat.add_zero]
  · next h =>
    have hok : p = .fault → 0x04F < a := fun hp => by
      by_contra hc
      exact h ⟨hp, by omega⟩
    split
    · next h2 =>
      refine blockFault_eq_some.mpr ⟨max a 0x1000 - a, by omega, ?_, fun j hj =>
        writeFault_eq_none.mpr ⟨by omega, fun hp => by have := hok hp; omega⟩⟩
      have he : a + (max a 0x1000 - a) = max a 0x1000 := by omega
      have hl : 0xFFF < max a 0x1000 := by omega
      rw [he, writeFault, if_pos hl]
    · exact blockFault_eq_none.mpr fun k hk => writeFault_eq_none.mpr ⟨by omega, fun hp => by have := hok hp; omega⟩

end Sys2Proof.Machine
end

