-- ==== Sys2Proof/Laws/Ops.lean ====
section
/-! SUPPORT. One lemma per shared operation that says everything it can do: the call stack, the register block, the
write of a result and its flag, the sprite, the keys, the fetch and the cycle. -/

namespace Sys2Proof.Machine

/-! ## Call stack -/

/-- Everything `push` can do. -/
theorem State.push_cases (s : State) (a : Word) :
    (s.sp.val = 16 ∧ s.push a = none) ∨
    (∃ t, s.push a = some t ∧ s.sp.val < 16 ∧ t.sp.val = s.sp.val + 1 ∧
      t = { s with stack := t.stack, sp := t.sp } ∧
      ∀ k (h : k < 16), t.stack[k] = if k = s.sp.val then a else s.stack[k]) := by
  by_cases h : s.sp.val < 16
  · refine .inr ⟨{ s with stack := s.stack.set s.sp.val a, sp := ⟨s.sp.val + 1, by omega⟩ }, by
      simp [State.push, h], h, rfl, rfl, fun k hk => ?_⟩
    simp only [Vector.getElem_set, eq_comm]
  · exact .inl ⟨by omega, by simp [State.push, h]⟩

/-- Everything `pop` can do. -/
theorem State.pop_cases (s : State) :
    (s.sp.val = 0 ∧ s.pop = none) ∨
    (∃ a t, s.pop = some (a, t) ∧ 0 < s.sp.val ∧ t.sp.val = s.sp.val - 1 ∧ t = { s with sp := t.sp } ∧
      ∀ h : s.sp.val - 1 < 16, a = s.stack[s.sp.val - 1]) := by
  by_cases h : 0 < s.sp.val
  · exact .inr ⟨s.stack[s.sp.val - 1], { s with sp := ⟨s.sp.val - 1, by omega⟩ }, by
      simp [State.pop, h], h, rfl, rfl, fun _ => rfl⟩
  · exact .inl ⟨by omega, by simp [State.pop, h]⟩

/-! ## Register block -/

/-- Everything `fillRegs` can do: register `j` takes its byte where the block reaches it. -/
theorem getElem_fillRegs (k : Nat) (bs : List Byte) (v : Vector Byte 16) (j : Nat) (h : j < 16) :
    (fillRegs k bs v)[j] = if k ≤ j ∧ j < k + bs.length then bs.getD (j - k) 0 else v[j] := by
  induction bs generalizing k v with
  | nil =>
    have hn : ¬ (k ≤ j ∧ j < k + 0) := by omega
    simp only [fillRegs, List.length_nil, hn, if_false]
  | cons b bs ih =>
    rw [fillRegs, ih, Vector.getElem_setIfInBounds]
    by_cases hkj : k = j
    · subst hkj
      simp
    · by_cases hin : k + 1 ≤ j ∧ j < k + 1 + bs.length
      · have h2 : k ≤ j ∧ j < k + (b :: bs).length := by simp only [List.length_cons]; omega
        have h3 : j - k = j - (k + 1) + 1 := by omega
        rw [if_pos hin, if_pos h2, h3, List.getD_cons_succ]
      · have h2 : ¬ (k ≤ j ∧ j < k + (b :: bs).length) := by simp only [List.length_cons]; omega
        rw [if_neg hin, if_neg h2, if_neg hkj]

@[simp] theorem State.length_regsUpTo (s : State) (x : RegIdx) : (s.regsUpTo x).length = x.toNat + 1 := by
  have := x.isLt
  simp [State.regsUpTo]
  omega

theorem State.getElem_regsUpTo (s : State) (x : RegIdx) (k : Nat) (h : k < (s.regsUpTo x).length) :
    (s.regsUpTo x)[k] = s.reg (BitVec.ofNat 4 k) := by
  have hx := x.isLt
  have hk : k < 16 := by simp at h; omega
  simp [State.regsUpTo, State.reg, Nat.mod_eq_of_lt hk]

/-! ## A result and its flag -/

/-- For a destination other than VF the result goes to `V[x]` and the flag to VF, under every setting. -/
theorem State.writeWithFlag_ne (s : State) (p : VfDestPolicy) (o : ClauseOrder) {x : RegIdx} (r f : Byte)
    (hx : x ≠ VF) : s.writeWithFlag p o x r f = (s.setReg x r).setReg VF f := by
  have hn : VF.toNat ≠ x.toNat := fun e => hx (BitVec.eq_of_toNat_eq e.symm)
  cases p <;> cases o <;> simp only [State.writeWithFlag, if_neg hx]
  simp only [State.setReg, State.mk.injEq, true_and, and_true]
  exact Vector.set_comm _ _ hn

/-- Whatever the setting, only registers and the counter of free values can change. -/
theorem State.writeWithFlag_rest (s : State) (p : VfDestPolicy) (o : ClauseOrder) (x : RegIdx) (r f : Byte) :
    s.writeWithFlag p o x r f =
      { s with v := (s.writeWithFlag p o x r f).v, draws := (s.writeWithFlag p o x r f).draws } := by
  cases p <;> cases o <;> simp only [State.writeWithFlag] <;> (try split) <;> rfl

/-- Whatever the setting, no register but `V[x]` and VF changes. -/
theorem State.writeWithFlag_reg_ne (s : State) (p : VfDestPolicy) (o : ClauseOrder) (x : RegIdx) (r f : Byte)
    {q : RegIdx} (hx : q ≠ x) (hf : q ≠ VF) : (s.writeWithFlag p o x r f).reg q = s.reg q := by
  cases p <;> cases o <;> simp only [State.writeWithFlag] <;> (try split) <;> simp [hx, hf]

/-! ## Display -/

@[simp] theorem pixelAt_val_fst (px py : Nat) : (pixelAt px py).1.val = px % 64 := rfl
@[simp] theorem pixelAt_val_snd (px py : Nat) : (pixelAt px py).2.val = py % 32 := rfl

/-- A toggle flips its own cell and no other. -/
theorem lit_toggle (d : Display) (p q : Pixel) : lit (toggle d p) q = if q = p then !lit d p else lit d q := by
  obtain ⟨px, py⟩ := p
  obtain ⟨qx, qy⟩ := q
  simp only [lit, toggle, Fin.getElem_fin, Vector.getElem_set, Prod.mk.injEq]
  by_cases hy : py.val = qy.val
  · have hy' : qy = py := Fin.ext hy.symm
    subst hy'
    by_cases hx : qx = px
    · subst hx
      simp
    · have hx' : ¬ qx.val = px.val := fun e => hx (Fin.ext e)
      simp [hx, hx']
  · have hy' : ¬ qy = py := fun e => hy (by rw [e])
    simp [hy, hy']

theorem display_ext {d e : Display} (h : ∀ p, lit d p = lit e p) : d = e :=
  Vector.ext fun y hy => BitVec.eq_of_getLsbD_eq fun x hx => h (⟨x, hx⟩, ⟨y, hy⟩)

@[simp] theorem lit_blankDisplay (p : Pixel) : lit blankDisplay p = false := by
  simp [lit, blankDisplay]

/-- Everything `toggleAll` can do where no cell is listed twice: a listed cell flips, and there is a collision when a
listed cell was lit. -/
theorem toggleAll_spec {ps : List Pixel} (hps : ps.Nodup) (d : Display) (hit : Bool) :
    (∀ q, lit (toggleAll ps (d, hit)).1 q = if q ∈ ps then !lit d q else lit d q) ∧
    ((toggleAll ps (d, hit)).2 = true ↔ hit = true ∨ ∃ p ∈ ps, lit d p = true) := by
  induction ps generalizing d hit with
  | nil => simp [toggleAll]
  | cons p ps ih =>
    obtain ⟨hp, hps⟩ := List.nodup_cons.mp hps
    obtain ⟨ih1, ih2⟩ := ih hps (toggle d p) (hit || lit d p)
    rw [toggleAll]
    refine ⟨fun q => ?_, ?_⟩
    · rw [ih1, lit_toggle]
      by_cases hq : q = p
      · subst hq
        simp [hp]
      · simp [hq]
    · rw [ih2, Bool.or_eq_true, List.exists_mem_cons_iff, or_assoc]
      have he : (∃ q ∈ ps, lit (toggle d p) q = true) ↔ ∃ q ∈ ps, lit d q = true := by
        refine exists_congr fun q => and_congr_right fun hq => ?_
        have hqp : q ≠ p := fun e => hp (e ▸ hq)
        rw [lit_toggle, if_neg hqp]
      rw [he]

theorem mem_spriteRowPixels {x0 y : Nat} {b : Byte} {p : Pixel} :
    p ∈ spriteRowPixels x0 y b ↔ ∃ c, c < 8 ∧ b.getLsbD (7 - c) = true ∧ p = pixelAt (x0 + c) y := by
  simp only [spriteRowPixels, List.mem_map, List.mem_filter, List.mem_range, and_assoc, eq_comm]

/-- The cells of a sprite: row r, column c of it, where the bit is set. -/
theorem mem_spritePixels {x0 y0 : Nat} {bs : List Byte} {p : Pixel} :
    p ∈ spritePixels x0 y0 bs ↔
      ∃ r c, r < bs.length ∧ c < 8 ∧ (bs.getD r 0).getLsbD (7 - c) = true ∧ p = pixelAt (x0 + c) (y0 + r) := by
  induction bs generalizing y0 with
  | nil => simp [spritePixels]
  | cons b bs ih =>
    rw [spritePixels, List.mem_append, mem_spriteRowPixels, ih]
    constructor
    · rintro (⟨c, hc, hb, rfl⟩ | ⟨r, c, hr, hc, hb, rfl⟩)
      · exact ⟨0, c, by simp, hc, by simpa using hb, rfl⟩
      · exact ⟨r + 1, c, by simpa using hr, hc, by simpa using hb, by rw [Nat.add_assoc, Nat.add_comm 1 r]⟩
    · rintro ⟨r, c, hr, hc, hb, rfl⟩
      cases r with
      | zero => exact .inl ⟨c, hc, by simpa using hb, rfl⟩
      | succ r =>
        exact .inr ⟨r, c, by simpa using hr, hc, by simpa using hb, by rw [Nat.add_assoc, Nat.add_comm 1 r]⟩

theorem nodup_spriteRowPixels (x0 y : Nat) (b : Byte) : (spriteRowPixels x0 y b).Nodup := by
  refine (List.nodup_range.filter _).map_on fun c hc e he h => ?_
  have hc := List.mem_range.mp (List.mem_filter.mp hc).1
  have he := List.mem_range.mp (List.mem_filter.mp he).1
  have := congrArg (fun p : Pixel => p.1.val) h
  simp only [pixelAt_val_fst] at this
  omega

/-- No cell is listed twice: a sprite is 8 columns wide and at most 32 rows tall. -/
theorem nodup_spritePixels (x0 y0 : Nat) {bs : List Byte} (h : bs.length ≤ 32) : (spritePixels x0 y0 bs).Nodup := by
  induction bs generalizing y0 with
  | nil => simp [spritePixels]
  | cons b bs ih =>
    simp only [List.length_cons] at h
    rw [spritePixels]
    refine List.nodup_append.mpr ⟨nodup_spriteRowPixels x0 y0 b, ih _ (by omega), fun p hp q hq he => ?_⟩
    subst he
    obtain ⟨c, -, -, rfl⟩ := mem_spriteRowPixels.mp hp
    obtain ⟨r, e, hr, -, -, h2⟩ := mem_spritePixels.mp hq
    have := congrArg (fun p : Pixel => p.2.val) h2
    simp only [pixelAt_val_snd] at this
    omega

/-- Everything `drawSprite` can do, for a sprite of at most 32 rows. -/
theorem drawSprite_spec (d : Display) (x0 y0 : Nat) {sprite : List Byte} (h : sprite.length ≤ 32) :
    (∀ q, lit (drawSprite d x0 y0 sprite).1 q = if q ∈ spritePixels x0 y0 sprite then !lit d q else lit d q) ∧
    ((drawSprite d x0 y0 sprite).2 = true ↔ ∃ p ∈ spritePixels x0 y0 sprite, lit d p = true) := by
  have := toggleAll_spec (nodup_spritePixels x0 y0 h) d false
  simpa [drawSprite] using this

/-! `State.drawAt`, field by field -/

/-- The display and the collision of a draw, from the state before it. -/
def State.drawing (s : State) (x y : RegIdx) (n : Nibble) : Display × Bool :=
  drawSprite s.disp ((s.reg x).toNat % 64) ((s.reg y).toNat % 32) (s.readAtIndex n.toNat)

/-- A draw writes the display and VF and nothing else. -/
theorem State.drawAt_eq (s : State) (x y : RegIdx) (n : Nibble) :
    s.drawAt x y n = (s.setDisp (s.drawing x y n).1).setReg VF (flagByte (s.drawing x y n).2) := rfl

@[simp] theorem State.drawing_advance (s : State) (x y : RegIdx) (n : Nibble) :
    s.advance.drawing x y n = s.drawing x y n := rfl

/-! ## Keys -/

theorem State.keyAt_lt (s : State) {k : Nat} (h : k < 16) : s.keyAt k = some s.key[k] := by
  simp [State.keyAt, h]

theorem State.keyAt_ge (s : State) {k : Nat} (h : 16 ≤ k) : s.keyAt k = none := by
  simp [State.keyAt, h]

/-- Everything `lowestKey` can answer. -/
theorem State.lowestKey_cases (s : State) :
    (s.lowestKey = none ∧ ∀ k (_ : k < 16), s.key[k] = false) ∨
    (∃ k, ∃ _ : k < 16, s.lowestKey = some k ∧ s.key[k] = true ∧
      ∀ j (_ : j < 16), j < k → s.key[j] = false) := by
  cases h : s.lowestKey with
  | none =>
    refine .inl ⟨rfl, fun k hk => ?_⟩
    have := List.find?_eq_none.mp h k (List.mem_range.mpr hk)
    simpa [s.keyAt_lt hk] using this
  | some k =>
    rw [State.lowestKey, List.find?_range_eq_some] at h
    obtain ⟨hp, hk, hl⟩ := h
    have hk : k < 16 := List.mem_range.mp hk
    refine .inr ⟨k, hk, rfl, by simpa [s.keyAt_lt hk] using hp, fun j hj hjk => ?_⟩
    simpa [s.keyAt_lt hj] using hl j hjk

/-! ## Fetch and cycle -/

/-- Everything `fetch` can answer. -/
theorem State.fetch_cases (s : State) :
    (0xFFF ≤ s.pc.toNat ∧ s.fetch = .error (.outOfRangeAccess (max s.pc.toNat 0x1000))) ∨
    (s.pc.toNat < 0xFFF ∧ s.fetch =
      .ok (wordOfBytes (s.mem.read s.pc.toNat) (s.mem.read (s.pc.toNat + 1)))) := by
  rw [State.fetch, blockFault_read]
  by_cases h : 0xFFF ≤ s.pc.toNat
  · have h1 : 0 < 2 ∧ 0xFFF < s.pc.toNat + 2 - 1 := by omega
    exact .inl ⟨h, by rw [if_pos h1]⟩
  · have h1 : ¬ (0 < 2 ∧ 0xFFF < s.pc.toNat + 2 - 1) := by omega
    exact .inr ⟨by omega, by rw [if_neg h1]⟩

/-- Everything a cycle can be: halted, a fetch fault, an illegal word, or the execution of the decoded instruction. -/
theorem step_cases (s : State) :
    (s.halt.isSome = true ∧ step s = .next s) ∨
    (s.halt = none ∧ 0xFFF ≤ s.pc.toNat ∧
      step s = .next (s.enterFault (.outOfRangeAccess (max s.pc.toNat 0x1000)) none)) ∨
    (∃ w bad, s.halt = none ∧ s.fetch = .ok w ∧ decode w = .decodeFailure bad ∧
      step s = .next (s.enterFault .decodeFailure (some bad))) ∨
    (∃ w i, s.halt = none ∧ s.fetch = .ok w ∧ decode w = .instr i ∧ step s = exec i s) := by
  cases hh : s.halt with
  | some r => exact .inl ⟨rfl, by simp [step, cycleState, hh]⟩
  | none =>
    refine .inr ?_
    have hstep : step s = runCycle s := by simp [step, cycleState, hh]
    rw [hstep]
    rcases s.fetch_cases with ⟨hpc, hf⟩ | ⟨-, hf⟩
    · exact .inl ⟨rfl, hpc, by simp [runCycle, hf]⟩
    · refine .inr ?_
      cases hd : decode (wordOfBytes (s.mem.read s.pc.toNat) (s.mem.read (s.pc.toNat + 1))) with
      | instr i => exact .inr ⟨_, i, rfl, hf, hd, by simp [runCycle, hf, hd]⟩
      | decodeFailure bad => exact .inl ⟨_, bad, rfl, hf, hd, by simp [runCycle, hf, hd]⟩

end Sys2Proof.Machine
end

