-- ==== Sys2Proof/Laws/Exec.lean ====
section
/-! SUPPORT. What an execution can do: one inversion lemma over all instructions, from which the invariants and the
whole-machine frames follow. -/

namespace Sys2Proof.Machine

/-- The faults of a checked read at the index register. -/
theorem State.readFaultAtIndex_some {s : State} {n : Nat} {f : Fault} (h : s.readFaultAtIndex n = some f) :
    s.ReachesPastEnd n f := by
  rw [State.readFaultAtIndex, blockFault_read] at h
  split at h
  · next hc =>
    refine ⟨hc.1, ?_, (Option.some.inj h).symm⟩
    simp only [State.effAddr] at hc ⊢
    omega
  · cases h

/-- The checked read passes exactly where the bytes may be read. -/
theorem State.readFaultAtIndex_none {s : State} {n : Nat} :
    s.readFaultAtIndex n = none ↔ n = 0 ∨ s.CanRead n := by
  rw [State.readFaultAtIndex, blockFault_read, State.CanRead]
  simp only [Config.memSize]
  split <;> simp <;> omega

/-- The faults of a checked store at the index register. -/
theorem State.writeFaultAtIndex_some {s : State} {n : Nat} {f : Fault} (hn : 0 < n)
    (h : s.writeFaultAtIndex fontWrite n = some f) : s.ReachesPastEnd n f ∨ s.StoresIntoFont f := by
  rw [State.writeFaultAtIndex, blockFault_write _ _ _ hn] at h
  split at h
  · next hc => exact .inr ⟨hc.1, hc.2, (Option.some.inj h).symm⟩
  · split at h
    · next hc =>
      refine .inl ⟨hn, ?_, (Option.some.inj h).symm⟩
      simp only [State.effAddr] at hc ⊢
      omega
    · cases h

/-- The key index of an instruction that finds no key state. -/
theorem State.keyAt_eq_none {s : State} {k : Nat} (h : s.keyAt k = none) : 15 < k := by
  by_contra hk
  rw [s.keyAt_lt (by omega)] at h
  cases h

/-- The checked store passes exactly where the bytes may be stored to. -/
theorem State.writeFaultAtIndex_none {s : State} {n : Nat} (hn : 0 < n) :
    s.writeFaultAtIndex fontWrite n = none ↔ s.CanStore n := by
  rw [State.writeFaultAtIndex, blockFault_write _ _ _ hn, State.CanStore]
  split
  · next h =>
    have hlow : ¬ 0x04F < s.effAddr 0 := by omega
    simp [h.1, hlow]
  · next h =>
    have h' : fontWrite = .fault → 0x04F < s.effAddr 0 := fun hp => by
      by_contra hc
      exact h ⟨hp, by omega⟩
    simp only [Config.memSize]
    split
    · simp; omega
    · simp only [true_iff]
      exact ⟨by omega, h'⟩

/-- What a completed execution leaves alone whatever the instruction, and what it can make of memory. -/
structure Kept (i : Instr) (s t : State) : Prop where
  halt : t.halt = s.halt
  key : t.key = s.key
  mem : t.mem = s.mem ∨ ∃ bs : List Byte, bs.length = i.storedBytes ∧ s.CanStore bs.length ∧
    t.mem = s.mem.writeBlock (s.effAddr 0) bs

theorem Kept.of_mem {i : Instr} {s t : State} (hh : t.halt = s.halt) (hk : t.key = s.key) (hm : t.mem = s.mem) :
    Kept i s t := ⟨hh, hk, .inl hm⟩

theorem skipIf_kept (i : Instr) (s : State) (c : Bool) : Kept i s (s.advance.skipIf c) := by
  cases c <;> exact Kept.of_mem rfl rfl rfl

theorem writeWithFlag_kept (i : Instr) (s : State) (p : VfDestPolicy) (o : ClauseOrder) (x : RegIdx) (r f : Byte) :
    Kept i s (s.advance.writeWithFlag p o x r f) := by
  rw [State.writeWithFlag_rest]
  exact Kept.of_mem rfl rfl rfl

/-- Everything an execution can be: the taking of a fault that the instruction can raise, or a completion. -/
theorem exec_inversion {i : Instr} {s t : State} (h : exec i s = .next t) :
    (∃ f, i.CanRaise s f ∧ t = s.enterFault f (some (encode i))) ∨ Kept i s t := by
  cases i <;> simp only [exec] at h
  case nop | cls | jp | ldImm | addImm | ldReg | orReg | andReg | xorReg | ldIndex | jpV0 | rnd | ldFromDelay | ldDelay
      | ldSound | addIndex | ldFont => cases h; exact .inr (Kept.of_mem rfl rfl rfl)
  case seImm | sneImm | seReg | sneReg => cases h; exact .inr (skipIf_kept _ s _)
  case addReg | subReg | shr | subnReg | shl => cases h; exact .inr (writeWithFlag_kept _ s _ _ _ _ _)
  case ret =>
    unfold execRet at h
    rcases s.advance.pop_cases with ⟨h0, hp⟩ | ⟨a, u, hp, -, -, hu, -⟩ <;> rw [hp] at h <;> cases h
    · exact .inl ⟨_, ⟨rfl, h0⟩, rfl⟩
    · rw [hu]; exact .inr (Kept.of_mem rfl rfl rfl)
  case call nnn =>
    unfold execCall at h
    rcases s.advance.push_cases s.advance.pc with ⟨h0, hp⟩ | ⟨u, hp, -, -, hu, -⟩ <;> rw [hp] at h <;> cases h
    · exact .inl ⟨_, ⟨rfl, h0⟩, rfl⟩
    · rw [hu]; exact .inr (Kept.of_mem rfl rfl rfl)
  case drw x y n =>
    unfold execDrw at h
    split at h <;> cases h
    · next hf => exact .inl ⟨_, State.readFaultAtIndex_some hf, rfl⟩
    · exact .inr (Kept.of_mem rfl rfl rfl)
  case loadRegs x =>
    unfold execLoadRegs at h
    split at h <;> cases h
    · next hf => exact .inl ⟨_, State.readFaultAtIndex_some hf, rfl⟩
    · exact .inr (Kept.of_mem rfl rfl rfl)
  case ldBcd x =>
    unfold execLdBcd at h
    split at h <;> cases h
    · next hf => exact .inl ⟨_, State.writeFaultAtIndex_some (by omega) hf, rfl⟩
    · next hf =>
      have hc : s.CanStore 3 := (State.writeFaultAtIndex_none (by omega)).mp hf
      exact .inr ⟨rfl, rfl, .inr ⟨bcdDigits (s.reg x), rfl, hc, rfl⟩⟩
  case storeRegs x =>
    unfold execStoreRegs at h
    split at h <;> cases h
    · next hf => exact .inl ⟨_, State.writeFaultAtIndex_some (by omega) hf, rfl⟩
    · next hf =>
      refine .inr ⟨rfl, rfl, .inr ⟨s.regsUpTo x, s.length_regsUpTo x, ?_, rfl⟩⟩
      rw [s.length_regsUpTo x]
      exact (State.writeFaultAtIndex_none (by omega)).mp hf
  case skp x =>
    unfold execSkp at h
    split at h <;> cases h
    · next hk => exact .inl ⟨_, ⟨rfl, State.keyAt_eq_none hk⟩, rfl⟩
    · exact .inr (skipIf_kept _ s _)
  case sknp x =>
    unfold execSknp at h
    split at h <;> cases h
    · next hk => exact .inl ⟨_, ⟨rfl, State.keyAt_eq_none hk⟩, rfl⟩
    · exact .inr (skipIf_kept _ s _)
  case ldKey x =>
    unfold execLdKey at h
    split at h <;> cases h <;> exact .inr (Kept.of_mem rfl rfl rfl)

end Sys2Proof.Machine
end

