-- ==== Sys2Proof/Laws/PerInstr.lean ====
section
/-! SUPPORT. The family of statements made per instruction: an instruction's word has the fixed bits of the
instruction's own row of spec/opcode_table.json. -/

namespace Sys2Proof

theorem getLsbD_wordNNN (f : BitVec 4) (nnn : Addr12) (i : Nat) :
    (wordNNN f nnn).getLsbD i = if i < 12 then nnn.getLsbD i else f.getLsbD (i - 12) :=
  BitVec.getLsbD_append

theorem getLsbD_wordXNN (f : BitVec 4) (x : RegIdx) (nn : Byte) (i : Nat) :
    (wordXNN f x nn).getLsbD i =
      if i < 8 then nn.getLsbD i else if i - 8 < 4 then x.getLsbD (i - 8) else f.getLsbD (i - 8 - 4) := by
  have h : (wordXNN f x nn).getLsbD i = if i < 8 then nn.getLsbD i else (f ++ x).getLsbD (i - 8) :=
    BitVec.getLsbD_append
  rw [h, BitVec.getLsbD_append]

theorem getLsbD_wordXYN (f : BitVec 4) (x y : RegIdx) (n : Nibble) (i : Nat) :
    (wordXYN f x y n).getLsbD i =
      if i < 4 then n.getLsbD i else if i - 4 < 4 then y.getLsbD (i - 4)
      else if i - 4 - 4 < 4 then x.getLsbD (i - 4 - 4) else f.getLsbD (i - 4 - 4 - 4) := by
  have h : (wordXYN f x y n).getLsbD i = if i < 4 then n.getLsbD i else (f ++ x ++ y).getLsbD (i - 4) :=
    BitVec.getLsbD_append
  rw [h, BitVec.getLsbD_append, BitVec.getLsbD_append]

/-- A word of the form `NNN` has its family's fixed bits. -/
theorem wordNNN_fixed (f : BitVec 4) (nnn : Addr12) : wordNNN f nnn &&& 0xF000#16 = wordNNN f 0 :=
  BitVec.eq_of_getLsbD_eq fun i hi => by
    rw [BitVec.getLsbD_and, getLsbD_wordNNN, getLsbD_wordNNN]
    interval_cases i <;> simp

/-- A word of the form `XNN` has its family's fixed bits. -/
theorem wordXNN_fixed (f : BitVec 4) (x : RegIdx) (nn : Byte) : wordXNN f x nn &&& 0xF000#16 = wordNNN f 0 :=
  BitVec.eq_of_getLsbD_eq fun i hi => by
    rw [BitVec.getLsbD_and, getLsbD_wordXNN, getLsbD_wordNNN]
    interval_cases i <;> simp

/-- A word of the form `X` has the fixed bits of its family and its low byte. -/
theorem wordX_fixed (f : BitVec 4) (x : RegIdx) (nn : Byte) : wordXNN f x nn &&& 0xF0FF#16 = wordXNN f 0 nn :=
  BitVec.eq_of_getLsbD_eq fun i hi => by
    rw [BitVec.getLsbD_and, getLsbD_wordXNN, getLsbD_wordXNN]
    interval_cases i <;> simp

/-- A word of the form `XY` has the fixed bits of its family and its low nibble. -/
theorem wordXY_fixed (f : BitVec 4) (x y : RegIdx) (n : Nibble) : wordXYN f x y n &&& 0xF00F#16 = wordXYN f 0 0 n :=
  BitVec.eq_of_getLsbD_eq fun i hi => by
    rw [BitVec.getLsbD_and, getLsbD_wordXYN, getLsbD_wordXYN]
    interval_cases i <;> simp

/-- A word of the form `XYN` has its family's fixed bits. -/
theorem wordXYN_fixed (f : BitVec 4) (x y : RegIdx) (n : Nibble) : wordXYN f x y n &&& 0xF000#16 = wordNNN f 0 :=
  BitVec.eq_of_getLsbD_eq fun i hi => by
    rw [BitVec.getLsbD_and, getLsbD_wordXYN, getLsbD_wordNNN]
    interval_cases i <;> simp

end Sys2Proof

namespace Sys2Proof.Laws.EncodesOwnRow

/-- The row of the table that carries the instruction's mnemonic admits the instruction's word. -/
def Statement (i : Instr) : Prop := ∃ r ∈ opcodeRows, r.mnemonic = i.mnemonic ∧ rowAdmits r (encode i) = true

theorem nop : Statement (.nop) :=
  ⟨⟨"NOP", 0x0000#16, 0xFFFF#16⟩, by decide, rfl, by decide⟩

theorem cls : Statement (.cls) :=
  ⟨⟨"CLS", 0x00E0#16, 0xFFFF#16⟩, by decide, rfl, by decide⟩

theorem ret : Statement (.ret) :=
  ⟨⟨"RET", 0x00EE#16, 0xFFFF#16⟩, by decide, rfl, by decide⟩

theorem jp (nnn : Addr12) : Statement (.jp nnn) :=
  ⟨⟨"JP_nnn", 0x1000#16, 0xF000#16⟩, by decide, rfl, beq_iff_eq.mpr (wordNNN_fixed 0x1#4 nnn)⟩

theorem call (nnn : Addr12) : Statement (.call nnn) :=
  ⟨⟨"CALL_nnn", 0x2000#16, 0xF000#16⟩, by decide, rfl, beq_iff_eq.mpr (wordNNN_fixed 0x2#4 nnn)⟩

theorem seImm (x : RegIdx) (nn : Byte) : Statement (.seImm x nn) :=
  ⟨⟨"SE_Vx__nn", 0x3000#16, 0xF000#16⟩, by decide, rfl, beq_iff_eq.mpr (wordXNN_fixed 0x3#4 x nn)⟩

theorem sneImm (x : RegIdx) (nn : Byte) : Statement (.sneImm x nn) :=
  ⟨⟨"SNE_Vx__nn", 0x4000#16, 0xF000#16⟩, by decide, rfl, beq_iff_eq.mpr (wordXNN_fixed 0x4#4 x nn)⟩

theorem seReg (x y : RegIdx) : Statement (.seReg x y) :=
  ⟨⟨"SE_Vx__Vy", 0x5000#16, 0xF00F#16⟩, by decide, rfl, beq_iff_eq.mpr (wordXY_fixed 0x5#4 x y 0x0#4)⟩

theorem ldImm (x : RegIdx) (nn : Byte) : Statement (.ldImm x nn) :=
  ⟨⟨"LD_Vx__nn", 0x6000#16, 0xF000#16⟩, by decide, rfl, beq_iff_eq.mpr (wordXNN_fixed 0x6#4 x nn)⟩

theorem addImm (x : RegIdx) (nn : Byte) : Statement (.addImm x nn) :=
  ⟨⟨"ADD_Vx__nn", 0x7000#16, 0xF000#16⟩, by decide, rfl, beq_iff_eq.mpr (wordXNN_fixed 0x7#4 x nn)⟩

theorem ldReg (x y : RegIdx) : Statement (.ldReg x y) :=
  ⟨⟨"LD_Vx__Vy", 0x8000#16, 0xF00F#16⟩, by decide, rfl, beq_iff_eq.mpr (wordXY_fixed 0x8#4 x y 0x0#4)⟩

theorem orReg (x y : RegIdx) : Statement (.orReg x y) :=
  ⟨⟨"OR_Vx__Vy", 0x8001#16, 0xF00F#16⟩, by decide, rfl, beq_iff_eq.mpr (wordXY_fixed 0x8#4 x y 0x1#4)⟩

theorem andReg (x y : RegIdx) : Statement (.andReg x y) :=
  ⟨⟨"AND_Vx__Vy", 0x8002#16, 0xF00F#16⟩, by decide, rfl, beq_iff_eq.mpr (wordXY_fixed 0x8#4 x y 0x2#4)⟩

theorem xorReg (x y : RegIdx) : Statement (.xorReg x y) :=
  ⟨⟨"XOR_Vx__Vy", 0x8003#16, 0xF00F#16⟩, by decide, rfl, beq_iff_eq.mpr (wordXY_fixed 0x8#4 x y 0x3#4)⟩

theorem addReg (x y : RegIdx) : Statement (.addReg x y) :=
  ⟨⟨"ADD_Vx__Vy", 0x8004#16, 0xF00F#16⟩, by decide, rfl, beq_iff_eq.mpr (wordXY_fixed 0x8#4 x y 0x4#4)⟩

theorem subReg (x y : RegIdx) : Statement (.subReg x y) :=
  ⟨⟨"SUB_Vx__Vy", 0x8005#16, 0xF00F#16⟩, by decide, rfl, beq_iff_eq.mpr (wordXY_fixed 0x8#4 x y 0x5#4)⟩

theorem shr (x y : RegIdx) : Statement (.shr x y) :=
  ⟨⟨"SHR_Vx____Vy", 0x8006#16, 0xF00F#16⟩, by decide, rfl, beq_iff_eq.mpr (wordXY_fixed 0x8#4 x y 0x6#4)⟩

theorem subnReg (x y : RegIdx) : Statement (.subnReg x y) :=
  ⟨⟨"SUBN_Vx__Vy", 0x8007#16, 0xF00F#16⟩, by decide, rfl, beq_iff_eq.mpr (wordXY_fixed 0x8#4 x y 0x7#4)⟩

theorem shl (x y : RegIdx) : Statement (.shl x y) :=
  ⟨⟨"SHL_Vx____Vy", 0x800E#16, 0xF00F#16⟩, by decide, rfl, beq_iff_eq.mpr (wordXY_fixed 0x8#4 x y 0xE#4)⟩

theorem sneReg (x y : RegIdx) : Statement (.sneReg x y) :=
  ⟨⟨"SNE_Vx__Vy", 0x9000#16, 0xF00F#16⟩, by decide, rfl, beq_iff_eq.mpr (wordXY_fixed 0x9#4 x y 0x0#4)⟩

theorem ldIndex (nnn : Addr12) : Statement (.ldIndex nnn) :=
  ⟨⟨"LD_I__nnn", 0xA000#16, 0xF000#16⟩, by decide, rfl, beq_iff_eq.mpr (wordNNN_fixed 0xA#4 nnn)⟩

theorem jpV0 (nnn : Addr12) : Statement (.jpV0 nnn) :=
  ⟨⟨"JP_V0__nnn", 0xB000#16, 0xF000#16⟩, by decide, rfl, beq_iff_eq.mpr (wordNNN_fixed 0xB#4 nnn)⟩

theorem rnd (x : RegIdx) (nn : Byte) : Statement (.rnd x nn) :=
  ⟨⟨"RND_Vx__nn", 0xC000#16, 0xF000#16⟩, by decide, rfl, beq_iff_eq.mpr (wordXNN_fixed 0xC#4 x nn)⟩

theorem drw (x y : RegIdx) (n : Nibble) : Statement (.drw x y n) :=
  ⟨⟨"DRW_Vx__Vy__n", 0xD000#16, 0xF000#16⟩, by decide, rfl, beq_iff_eq.mpr (wordXYN_fixed 0xD#4 x y n)⟩

theorem skp (x : RegIdx) : Statement (.skp x) :=
  ⟨⟨"SKP_Vx", 0xE09E#16, 0xF0FF#16⟩, by decide, rfl, beq_iff_eq.mpr (wordX_fixed 0xE#4 x 0x9E#8)⟩

theorem sknp (x : RegIdx) : Statement (.sknp x) :=
  ⟨⟨"SKNP_Vx", 0xE0A1#16, 0xF0FF#16⟩, by decide, rfl, beq_iff_eq.mpr (wordX_fixed 0xE#4 x 0xA1#8)⟩

theorem ldFromDelay (x : RegIdx) : Statement (.ldFromDelay x) :=
  ⟨⟨"LD_Vx__DT", 0xF007#16, 0xF0FF#16⟩, by decide, rfl, beq_iff_eq.mpr (wordX_fixed 0xF#4 x 0x07#8)⟩

theorem ldKey (x : RegIdx) : Statement (.ldKey x) :=
  ⟨⟨"LD_Vx__K", 0xF00A#16, 0xF0FF#16⟩, by decide, rfl, beq_iff_eq.mpr (wordX_fixed 0xF#4 x 0x0A#8)⟩

theorem ldDelay (x : RegIdx) : Statement (.ldDelay x) :=
  ⟨⟨"LD_DT__Vx", 0xF015#16, 0xF0FF#16⟩, by decide, rfl, beq_iff_eq.mpr (wordX_fixed 0xF#4 x 0x15#8)⟩

theorem ldSound (x : RegIdx) : Statement (.ldSound x) :=
  ⟨⟨"LD_ST__Vx", 0xF018#16, 0xF0FF#16⟩, by decide, rfl, beq_iff_eq.mpr (wordX_fixed 0xF#4 x 0x18#8)⟩

theorem addIndex (x : RegIdx) : Statement (.addIndex x) :=
  ⟨⟨"ADD_I__Vx", 0xF01E#16, 0xF0FF#16⟩, by decide, rfl, beq_iff_eq.mpr (wordX_fixed 0xF#4 x 0x1E#8)⟩

theorem ldFont (x : RegIdx) : Statement (.ldFont x) :=
  ⟨⟨"LD_F__Vx", 0xF029#16, 0xF0FF#16⟩, by decide, rfl, beq_iff_eq.mpr (wordX_fixed 0xF#4 x 0x29#8)⟩

theorem ldBcd (x : RegIdx) : Statement (.ldBcd x) :=
  ⟨⟨"LD_B__Vx", 0xF033#16, 0xF0FF#16⟩, by decide, rfl, beq_iff_eq.mpr (wordX_fixed 0xF#4 x 0x33#8)⟩

theorem storeRegs (x : RegIdx) : Statement (.storeRegs x) :=
  ⟨⟨"LD__I___Vx", 0xF055#16, 0xF0FF#16⟩, by decide, rfl, beq_iff_eq.mpr (wordX_fixed 0xF#4 x 0x55#8)⟩

theorem loadRegs (x : RegIdx) : Statement (.loadRegs x) :=
  ⟨⟨"LD_Vx___I", 0xF065#16, 0xF0FF#16⟩, by decide, rfl, beq_iff_eq.mpr (wordX_fixed 0xF#4 x 0x65#8)⟩

end Sys2Proof.Laws.EncodesOwnRow
end

