-- ==== Sys2Proof/Tests/Slice0.lean ====
section
/-! SUPPORT. The model's own tests: words written out from the opcode map, vectors of spec/95_test_vectors.md (named in
each comment), and a witness for the hypotheses of every statement that has some. -/

namespace Sys2Proof.Tests

open Sys2Proof Sys2Proof.Machine

/-- A field of the next state. -/
def got {α : Type} (o : Host.Outcome State Fault Refusal) (f : State → α) : Option α :=
  match o with
  | .next t => some (f t)
  | _ => none

/-- The reset state with some registers set. -/
def regs (l : List (RegIdx × Byte)) : State := l.foldl (fun s p => s.setReg p.1 p.2) State.reset

/-- One step on a word placed at the program counter. -/
def run (w : Nat) (s : State) : Host.Outcome State Fault Refusal := step (s.withFetchWord 16 w)

/-- The reset state with `n` stack entries in use, all 0x202. -/
def stacked (n : Fin 17) : State := { State.reset with sp := n, stack := Vector.replicate 16 0x202#16 }

/-- The reset state with one key held. -/
def holding (k : Nat) : State := (State.reset.setKey k true).1

/-- The reset state with `I` and some bytes of memory at it. -/
def atIndex (i : Word) (bs : List Byte) : State := (State.reset.setIndex i).storeAtIndex bs

/-- A halted state. -/
def stopped : State := State.reset.enterFault .decodeFailure (some 0x0123#16)

/-! ## Well-formed words: an illegal word of every family that has some (R85) -/

theorem test_illegal_family0 : wordWellFormed 0x0123#16 = false := by decide
theorem test_illegal_family5 : wordWellFormed 0x5121#16 = false := by decide
theorem test_illegal_family8 : wordWellFormed 0x8008#16 = false := by decide
theorem test_illegal_family8_last : wordWellFormed 0x800F#16 = false := by decide
theorem test_illegal_family9 : wordWellFormed 0x9011#16 = false := by decide
theorem test_illegal_familyE : wordWellFormed 0xE19F#16 = false := by decide
theorem test_illegal_familyF : wordWellFormed 0xF0FF#16 = false := by decide
theorem test_legal_word : wordWellFormed 0xF065#16 = true := by decide

/-! ## Decoding: words written out bit by bit from R81 and R84, one for every constructor -/

theorem test_decode_nop : decode 0b0000000000000000#16 = .instr .nop := by decide
theorem test_decode_cls : decode 0b0000000011100000#16 = .instr .cls := by decide
theorem test_decode_ret : decode 0b0000000011101110#16 = .instr .ret := by decide
theorem test_decode_jp : decode 0b0001101010111100#16 = .instr (.jp 0xABC#12) := by decide
theorem test_decode_call : decode 0b0010101010111100#16 = .instr (.call 0xABC#12) := by decide
theorem test_decode_seImm : decode 0b0011101001011100#16 = .instr (.seImm 0xA#4 0x5C#8) := by decide
theorem test_decode_sneImm : decode 0b0100101001011100#16 = .instr (.sneImm 0xA#4 0x5C#8) := by decide
theorem test_decode_seReg : decode 0b0101001110100000#16 = .instr (.seReg 0x3#4 0xA#4) := by decide
theorem test_decode_ldImm : decode 0b0110101001011100#16 = .instr (.ldImm 0xA#4 0x5C#8) := by decide
theorem test_decode_addImm : decode 0b0111101001011100#16 = .instr (.addImm 0xA#4 0x5C#8) := by decide
theorem test_decode_ldReg : decode 0b1000001110100000#16 = .instr (.ldReg 0x3#4 0xA#4) := by decide
theorem test_decode_orReg : decode 0b1000001110100001#16 = .instr (.orReg 0x3#4 0xA#4) := by decide
theorem test_decode_andReg : decode 0b1000001110100010#16 = .instr (.andReg 0x3#4 0xA#4) := by decide
theorem test_decode_xorReg : decode 0b1000001110100011#16 = .instr (.xorReg 0x3#4 0xA#4) := by decide
theorem test_decode_addReg : decode 0b1000001110100100#16 = .instr (.addReg 0x3#4 0xA#4) := by decide
theorem test_decode_subReg : decode 0b1000001110100101#16 = .instr (.subReg 0x3#4 0xA#4) := by decide
theorem test_decode_shr : decode 0b1000001110100110#16 = .instr (.shr 0x3#4 0xA#4) := by decide
theorem test_decode_subnReg : decode 0b1000001110100111#16 = .instr (.subnReg 0x3#4 0xA#4) := by decide
theorem test_decode_shl : decode 0b1000001110101110#16 = .instr (.shl 0x3#4 0xA#4) := by decide
theorem test_decode_sneReg : decode 0b1001001110100000#16 = .instr (.sneReg 0x3#4 0xA#4) := by decide
theorem test_decode_ldIndex : decode 0b1010101010111100#16 = .instr (.ldIndex 0xABC#12) := by decide
theorem test_decode_jpV0 : decode 0b1011101010111100#16 = .instr (.jpV0 0xABC#12) := by decide
theorem test_decode_rnd : decode 0b1100101001011100#16 = .instr (.rnd 0xA#4 0x5C#8) := by decide
theorem test_decode_drw : decode 0b1101001110100101#16 = .instr (.drw 0x3#4 0xA#4 0x5#4) := by decide
theorem test_decode_skp : decode 0b1110101010011110#16 = .instr (.skp 0xA#4) := by decide
theorem test_decode_sknp : decode 0b1110101010100001#16 = .instr (.sknp 0xA#4) := by decide
theorem test_decode_ldFromDelay : decode 0b1111101000000111#16 = .instr (.ldFromDelay 0xA#4) := by decide
theorem test_decode_ldKey : decode 0b1111101000001010#16 = .instr (.ldKey 0xA#4) := by decide
theorem test_decode_ldDelay : decode 0b1111101000010101#16 = .instr (.ldDelay 0xA#4) := by decide
theorem test_decode_ldSound : decode 0b1111101000011000#16 = .instr (.ldSound 0xA#4) := by decide
theorem test_decode_addIndex : decode 0b1111101000011110#16 = .instr (.addIndex 0xA#4) := by decide
theorem test_decode_ldFont : decode 0b1111101000101001#16 = .instr (.ldFont 0xA#4) := by decide
theorem test_decode_ldBcd : decode 0b1111101000110011#16 = .instr (.ldBcd 0xA#4) := by decide
theorem test_decode_storeRegs : decode 0b1111101001010101#16 = .instr (.storeRegs 0xA#4) := by decide
theorem test_decode_loadRegs : decode 0b1111101001100101#16 = .instr (.loadRegs 0xA#4) := by decide

/-- Big-endian, and the bytes after the instruction are left (R65). -/
theorem test_decode_bytes : decodeBytes [0x6A, 0x5C, 0x12] = some (.instr (.ldImm 0xA#4 0x5C#8), [0x12]) := by decide
theorem test_decode_one_byte : decodeBytes [0x6A] = none := by decide
theorem test_decode_table_word : decodeTableWord 16 0xD125 = some (.drw 0x1#4 0x2#4 0x5#4) := by decide
theorem test_decode_table_word_illegal : decodeTableWord 16 0x5121 = none := by decide

/-- R95: the conventional text. -/
theorem test_text_drw : (Instr.drw 0x1#4 0xF#4 0x5#4).text = "DRW V1, VF, 0x5" := by decide
theorem test_text_shr : (Instr.shr 0x4#4 0x0#4).text = "SHR V4" := by decide

/-! ## The cycle (95, section 2.1) -/

/-- C-1: a fetch at 0xFFE is the last one in range. -/
theorem test_fetch_last_word : got (run 0x6011 (State.reset.setPc 0xFFE)) (fun t => (t.reg 0, t.pc)) =
    some (0x11, 0x1000) := by decide
/-- C-2, C-3. -/
theorem test_fetch_past_end : got (step (State.reset.setPc 0x1000)) (fun t => t.halt) =
    some (some ⟨.outOfRangeAccess 0x1000, 0x1000, none⟩) := by decide
theorem test_fetch_second_byte_past_end : got (step (State.reset.setPc 0xFFF)) (fun t => t.halt) =
    some (some ⟨.outOfRangeAccess 0x1000, 0xFFF, none⟩) := by decide
/-- C-4: an odd program counter. -/
theorem test_fetch_odd : got (run 0x6A07 (State.reset.setPc 0x201)) (fun t => (t.reg 0xA, t.pc)) =
    some (0x07, 0x203) := by decide
/-- C-5, and the program counter stays. -/
theorem test_illegal_word_halts : got (run 0x0123 State.reset) (fun t => (t.halt, t.pc)) =
    some (some ⟨.decodeFailure, 0x200, some 0x0123⟩, 0x200) := by decide
/-- C-10. -/
theorem test_halted_stays : got (step stopped) (fun t => (t.halt, t.pc)) = some (stopped.halt, 0x200) := by decide

/-! ## Control flow (95, section 2.2) -/

/-- C-12. -/
theorem test_nop : got (run 0x0000 State.reset) (fun t => (t.pc, t.halt)) = some (0x202, none) := by decide
/-- F-1, F-2. -/
theorem test_ret_empty : got (run 0x00EE State.reset) (fun t => t.halt) =
    some (some ⟨.stackUnderflow, 0x200, some 0x00EE⟩) := by decide
theorem test_ret : got (run 0x00EE (stacked 2)) (fun t => (t.pc, t.sp, t.stack[1])) = some (0x202, 1, 0x202) := by
  decide
/-- F-3. -/
theorem test_jp_end : got (run 0x1FFF State.reset) (fun t => (t.pc, t.halt)) = some (0xFFF, none) := by decide
/-- F-5, F-6. -/
theorem test_call_last_entry : got (run 0x2ABC (stacked 15)) (fun t => (t.pc, t.sp, t.stack[15])) =
    some (0xABC, 16, 0x202) := by decide
theorem test_call_full : got (run 0x2ABC (stacked 16)) (fun t => (t.halt, t.pc, t.sp)) =
    some (some ⟨.stackOverflow 0xABC, 0x200, some 0x2ABC⟩, 0x200, 16) := by decide
/-- F-7, F-8. -/
theorem test_seImm_taken : got (run 0x3742 (regs [(7, 0x42)])) (fun t => t.pc) = some 0x204 := by decide
theorem test_seImm_not_taken : got (run 0x3743 (regs [(7, 0x42)])) (fun t => t.pc) = some 0x202 := by decide
theorem test_sneImm_not_taken : got (run 0x4742 (regs [(7, 0x42)])) (fun t => t.pc) = some 0x202 := by decide
theorem test_sneImm_taken : got (run 0x4743 (regs [(7, 0x42)])) (fun t => t.pc) = some 0x204 := by decide
/-- F-9 to F-11. -/
theorem test_seReg_same : got (run 0x5440 State.reset) (fun t => t.pc) = some 0x204 := by decide
theorem test_seReg_differ : got (run 0x5120 (regs [(1, 1), (2, 2)])) (fun t => t.pc) = some 0x202 := by decide
theorem test_sneReg_same : got (run 0x9440 State.reset) (fun t => t.pc) = some 0x202 := by decide
theorem test_sneReg_differ : got (run 0x9120 (regs [(1, 1), (2, 2)])) (fun t => t.pc) = some 0x204 := by decide
/-- F-12, F-13. -/
theorem test_jpV0_uses_V0 : got (run 0xB300 (regs [(0, 0x10), (3, 0x77)])) (fun t => t.pc) = some 0x310 := by decide
theorem test_jpV0_past_end : got (run 0xBFFF (regs [(0, 0xFF)])) (fun t => (t.pc, t.halt)) = some (0x10FE, none) := by
  decide

/-! ## Registers and the ALU (95, section 2.3) -/

/-- A-1. -/
theorem test_ldImm_VF : got (run 0x6FAB State.reset) (fun t => t.reg VF) = some 0xAB := by decide
/-- A-2, A-3. -/
theorem test_addImm_no_flag : got (run 0x7201 (regs [(2, 0xFF), (VF, 0x07)])) (fun t => (t.reg 2, t.reg VF)) =
    some (0x00, 0x07) := by decide
theorem test_addImm_VF : got (run 0x7F02 (regs [(VF, 0xFF)])) (fun t => t.reg VF) = some 0x01 := by decide
/-- A-4. -/
theorem test_ldReg : got (run 0x8120 (regs [(1, 0x3C), (2, 0xC3)])) (fun t => t.reg 1) = some 0xC3 := by decide
/-- A-5 to A-8. -/
theorem test_orReg_keeps_VF : got (run 0x8121 (regs [(1, 0x0F), (2, 0x30), (VF, 0x55)])) (fun t => (t.reg 1, t.reg VF)) =
    some (0x3F, 0x55) := by decide
theorem test_andReg : got (run 0x8122 (regs [(1, 0x0F), (2, 0x3C)])) (fun t => t.reg 1) = some 0x0C := by decide
theorem test_xorReg : got (run 0x8123 (regs [(1, 0x0F), (2, 0x3C)])) (fun t => t.reg 1) = some 0x33 := by decide
theorem test_xorReg_self : got (run 0x8113 (regs [(1, 0x5A)])) (fun t => t.reg 1) = some 0x00 := by decide
/-- A-9, A-12 (y = F reads the old VF). -/
theorem test_addReg_carry : got (run 0x8124 (regs [(1, 0xFF), (2, 0x01)])) (fun t => (t.reg 1, t.reg VF)) =
    some (0x00, 1) := by decide
theorem test_addReg_reads_old_VF : got (run 0x80F4 (regs [(0, 0x01), (VF, 0xFF)])) (fun t => (t.reg 0, t.reg VF)) =
    some (0x00, 1) := by decide
/-- A-15, A-16 (the spec's default setting). -/
theorem test_subReg_borrow : got (run 0x8125 (regs [(1, 0x00), (2, 0x01)])) (fun t => (t.reg 1, t.reg VF)) =
    some (0xFF, 0) := by decide
theorem test_subReg_VF : got (run 0x8F15 (regs [(VF, 0x05), (1, 0x07)])) (fun t => t.reg VF) = some 0 := by decide
/-- A-19, A-21 (the spec's default setting). -/
theorem test_shr_ignores_y : got (run 0x8126 (regs [(1, 0x01), (2, 0xFF)])) (fun t => (t.reg 1, t.reg VF, t.reg 2)) =
    some (0x00, 1, 0xFF) := by decide
theorem test_shr_VF : got (run 0x8F06 (regs [(VF, 0x02)])) (fun t => t.reg VF) = some 0x01 := by decide
/-- A-21 under the other setting. -/
theorem test_shr_VF_flag_last :
    (State.reset.writeWithFlag .flagLast .flagThenResult VF 0x01 0x00).reg VF = 0x00 := by decide
/-- A-17, A-18. -/
theorem test_subnReg_borrow : got (run 0x8127 (regs [(1, 0x01), (2, 0x00)])) (fun t => (t.reg 1, t.reg VF)) =
    some (0xFF, 0) := by decide
theorem test_subnReg : got (run 0x8127 (regs [(1, 0x01), (2, 0x10)])) (fun t => (t.reg 1, t.reg VF)) =
    some (0x0F, 1) := by decide
/-- A-23, A-24 (the spec's default setting). -/
theorem test_shl_ignores_y : got (run 0x812E (regs [(1, 0x80), (2, 0x01)])) (fun t => (t.reg 1, t.reg VF)) =
    some (0x00, 1) := by decide
theorem test_shl_VF : got (run 0x8F0E (regs [(VF, 0x81)])) (fun t => t.reg VF) = some 0x02 := by decide
/-- A-26: the one value that no draw changes. -/
theorem test_rnd_zero_mask : got (exec (.rnd 3 0x00) State.reset) (fun t => t.reg 3) = some 0x00 := by
  simp [got, exec, execRnd]

/-! ## Index register and memory (95, section 2.4) -/

/-- M-1. -/
theorem test_ldIndex : got (run 0xA456 (State.reset.setIndex 0xF123)) (fun t => t.index) = some 0x0456 := by decide
/-- M-2, M-3. -/
theorem test_addIndex_wraps : got (run 0xF11E ((regs [(1, 0x01)]).setIndex 0xFFFF)) (fun t => (t.index, t.reg VF)) =
    some (0x0000, 0) := by decide
theorem test_addIndex_past_memory : got (run 0xF11E ((regs [(1, 0x01)]).setIndex 0x0FFF)) (fun t => (t.index, t.halt)) =
    some (0x1000, none) := by decide
/-- M-4, M-5. -/
theorem test_ldFont_low_digit : got (run 0xF129 (regs [(1, 0x3A)])) (fun t => t.index) = some 0x032 := by decide
theorem test_ldFont_last : got (run 0xF129 (regs [(1, 0x0F)])) (fun t => t.index) = some 0x04B := by decide
/-- M-6, M-10 (the spec's default setting). -/
theorem test_ldBcd : got (run 0xF133 ((regs [(1, 0xFF)]).setIndex 0x300)) (fun t => t.mem.readBlock 0x300 3) =
    some [2, 5, 5] := by decide
theorem test_ldBcd_font : got (run 0xF133 (State.reset.setIndex 0x04E)) (fun t => t.halt) =
    some (some ⟨.fontWrite 0x04E, 0x200, some 0xF133⟩) := by decide
/-- M-12 in part, M-13. -/
theorem test_storeRegs_to_last_byte : got (run 0xFF55 ((regs [(0, 0x10), (VF, 0xFF)]).setIndex 0xFF0))
    (fun t => (t.mem.read 0xFF0, t.mem.read 0xFFF, t.index)) = some (0x10, 0xFF, 0xFF0) := by decide
theorem test_storeRegs_past_end : got (run 0xFF55 ((regs [(0, 0x10)]).setIndex 0xFF1))
    (fun t => (t.halt, t.mem.read 0xFF1)) = some (some ⟨.outOfRangeAccess 0x1000, 0x200, some 0xFF55⟩, 0) := by decide
/-- M-15, M-16. -/
theorem test_loadRegs_font : got (run 0xF465 (regs [(5, 0x77)])) (fun t => (t.reg 0, t.reg 1, t.reg 4, t.reg 5)) =
    some (0xF0, 0x90, 0xF0, 0x77) := by decide
theorem test_loadRegs_past_end : got (run 0xF065 (State.reset.setIndex 0x1000)) (fun t => t.halt) =
    some (some ⟨.outOfRangeAccess 0x1000, 0x200, some 0xF065⟩) := by decide

/-! ## Display (95, section 2.5) -/

/-- D-1 after D-4's cell. -/
theorem test_cls : got (exec .cls (State.reset.setDisp (toggle State.reset.disp (pixelAt 3 4))))
    (fun t => lit t.disp (pixelAt 3 4)) = some false := by decide
/-- L1-7: column wrap. -/
theorem test_drw_wraps_columns : got (run 0xD011 (((regs [(0, 0x3F), (1, 0x1F)]).setIndex 0x300).storeAtIndex [0xFF]))
    (fun t => (lit t.disp (pixelAt 63 31), lit t.disp (pixelAt 6 31), lit t.disp (pixelAt 7 31), lit t.disp (pixelAt 0 0),
      t.reg VF)) = some (true, true, false, false, 0) := by decide
/-- D-4: collision. -/
theorem test_drw_collision :
    got (run 0xD011 ((atIndex 0x300 [0x80]).setDisp (toggle State.reset.disp (pixelAt 0 0))))
      (fun t => (lit t.disp (pixelAt 0 0), t.reg VF)) = some (false, 1) := by decide

/-! ## Keys and timers (95, section 2.6) -/

/-- K-1, K-3. -/
theorem test_skp_pressed : got (run 0xE59E ((holding 0xA).setReg 5 0x0A)) (fun t => t.pc) = some 0x204 := by decide
theorem test_skp_index : got (run 0xE59E (regs [(5, 0x10)])) (fun t => t.halt) =
    some (some ⟨.keyIndexOutOfRange 0x10, 0x200, some 0xE59E⟩) := by decide
/-- K-2, K-4. -/
theorem test_sknp_not_pressed : got (run 0xE5A1 (regs [(5, 0x0A)])) (fun t => t.pc) = some 0x204 := by decide
theorem test_sknp_index : got (run 0xE5A1 (regs [(5, 0xFF)])) (fun t => t.halt) =
    some (some ⟨.keyIndexOutOfRange 0xFF, 0x200, some 0xE5A1⟩) := by decide
/-- K-5. -/
theorem test_ldFromDelay : got (run 0xF207 (State.reset.setDelay 0x3C)) (fun t => (t.reg 2, t.dt)) =
    some (0x3C, 0x3C) := by decide
/-- K-6, K-7. -/
theorem test_ldKey_lowest : got (run 0xF40A ((holding 9).setKey 3 true).1) (fun t => (t.reg 4, t.pc)) =
    some (0x03, 0x202) := by decide
theorem test_ldKey_waits : got (run 0xF40A (regs [(4, 0x55)])) (fun t => (t.reg 4, t.pc)) = some (0x55, 0x200) := by
  decide
/-- K-9, K-10. -/
theorem test_ldDelay : got (run 0xF115 (regs [(1, 0x3C)])) (fun t => t.dt) = some 0x3C := by decide
theorem test_ldSound : got (run 0xF118 (regs [(1, 0x02)])) (fun t => (t.st, t.soundActive)) = some (0x02, true) := by
  decide

/-! ## Host operations (95, sections 1 and 2.7) -/

/-- K-11, K-12. -/
theorem test_tick : (((State.reset.setDelay 1).setSound 2).tickTimers.dt, (State.reset.setSound 2).tickTimers.st,
    State.reset.tickTimers.dt) = (0, 1, 0) := by decide
/-- H-2: a load over a running program changes only its bytes. -/
theorem test_load_program :
    ((((State.reset.setMem (Memory.write [] 0x202 0x99)).setPc 0x250).loadProgram [0x12, 0x00]).1.mem.readBlock 0x200 3) =
      [0x12, 0x00, 0x99] := by decide
/-- C-11. -/
theorem test_restart : stopped.restart.halt = none := by decide
/-- The codes of R200. -/
theorem test_fault_codes : (Fault.decodeFailure.code, (Fault.stackOverflow 0).code, Fault.stackUnderflow.code,
    (Fault.outOfRangeAccess 0).code, (Fault.fontWrite 0).code, (Fault.keyIndexOutOfRange 0).code) =
      (1, 2, 3, 4, 5, 6) := by decide
/-- The canonical form: writing back what an unlisted address reads as removes the cell. -/
theorem test_memory_canonical : ((Memory.write [] 0x300 7).write 0x300 0, (Memory.write [] 0x301 7).write 0x300 8) =
    ([], [(0x300, 8), (0x301, 7)]) := by decide

/-! ## Witnesses: for every statement with hypotheses, a state and operands that meet them -/

theorem witness_EncodeOfDecodeIsTheWord : decode 0x6A5C#16 = .instr (.ldImm 0xA#4 0x5C#8) := by decide
theorem witness_IllegalWordsAreTheListedOnes : decode 0x8008#16 = .decodeFailure 0x8008#16 := by decide
theorem witness_DecodeAgreesWithOpcodeTable : decode 0x0000#16 = .instr .nop ∧
    ∃ q ∈ opcodeRows, rowAdmits q 0x0000#16 = true := by decide
theorem witness_FetchReadsBigEndianWord : (State.reset.setPc 0xFFE).pc.toNat < 0xFFF ∧
    (State.reset.setPc 0xFFF).pc.toNat = 0xFFF ∧ 0xFFF < (State.reset.setPc 0x1000).pc.toNat := by decide
theorem witness_StepRunsDecodedInstruction : State.reset.halt = none ∧ State.reset.pc.toNat < 0xFFF ∧
    decode (wordOfBytes (State.reset.mem.read 0x200) (State.reset.mem.read 0x201)) = .instr .nop := by decide
theorem witness_StepTakesFetchAndDecodeFaults : (State.reset.setPc 0xFFF).halt = none ∧
    0xFFF ≤ (State.reset.setPc 0xFFF).pc.toNat ∧ (State.reset.withFetchWord 16 0x0123).halt = none ∧
    (State.reset.withFetchWord 16 0x0123).fetch = .ok 0x0123#16 ∧ decode 0x0123#16 = .decodeFailure 0x0123#16 :=
  ⟨rfl, by decide, rfl, rfl, by decide⟩
theorem witness_FaultingCycleChangesOnlyHalt : State.reset.halt = none ∧ (State.reset.setPc 0xFFF).halt = none ∧
    step (State.reset.setPc 0xFFF) =
      .next ((State.reset.setPc 0xFFF).enterFault (.outOfRangeAccess 0x1000) none) := ⟨rfl, rfl, rfl⟩
theorem witness_FaultsComeOnlyFromListedCauses :
    (State.reset.setPc 0xFFF).halt = none ∧
    step (State.reset.setPc 0xFFF) = .next ((State.reset.setPc 0xFFF).enterFault (.outOfRangeAccess 0x1000) none) ∧
    (State.reset.withFetchWord 16 0x0123).halt = none ∧
    step (State.reset.withFetchWord 16 0x0123) =
      .next ((State.reset.withFetchWord 16 0x0123).enterFault .decodeFailure (some 0x0123#16)) ∧
    (State.reset.withFetchWord 16 0x00EE).halt = none ∧
    step (State.reset.withFetchWord 16 0x00EE) =
      .next ((State.reset.withFetchWord 16 0x00EE).enterFault .stackUnderflow (some 0x00EE#16)) :=
  ⟨rfl, rfl, rfl, rfl, rfl, rfl⟩
/-- The conditions of the listed causes hold exactly at the boundary values. -/
theorem witness_CanRaise_at_boundaries :
    (Instr.call 0xABC#12).CanRaise (stacked 16) (.stackOverflow 0xABC#12) ∧
    ¬ (Instr.call 0xABC#12).CanRaise (stacked 15) (.stackOverflow 0xABC#12) ∧
    (Instr.skp 5).CanRaise (regs [(5, 0x10)]) (.keyIndexOutOfRange 0x10#8) ∧
    ¬ (Instr.skp 5).CanRaise (regs [(5, 0x0F)]) (.keyIndexOutOfRange 0x0F#8) ∧
    (Instr.ldBcd 3).CanRaise (State.reset.setIndex 0x04F) (.fontWrite 0x04F) ∧
    ¬ (Instr.ldBcd 3).CanRaise (State.reset.setIndex 0x050) (.fontWrite 0x050) ∧
    (Instr.loadRegs 1).CanRaise (State.reset.setIndex 0xFFF) (.outOfRangeAccess 0x1000) ∧
    ¬ (Instr.loadRegs 1).CanRaise (State.reset.setIndex 0xFFE) (.outOfRangeAccess 0x1000) := by
  simp only [Instr.CanRaise, State.ReachesPastEnd, State.StoresIntoFont]
  decide
theorem witness_HaltedMachineExecutesNothing :
    stopped.halt = some ⟨.decodeFailure, 0x200#16, some 0x0123#16⟩ := by decide
theorem witness_HaltEndsOnlyByReset : HostEvent.reset ∉ [HostEvent.tickTimers, .cycle, .setKey 3 true] ∧
    ∃ t, performAll [.tickTimers, .cycle, .setKey 3 true] stopped = .next t := ⟨by decide, _, rfl⟩
theorem witness_SelfLoopChangesNothing : (State.reset.withFetchWord 16 0x1200).Running ∧
    (State.reset.withFetchWord 16 0x1200).AtSelfLoop := ⟨rfl, 0x200#12, by decide, rfl⟩
theorem witness_StepKeepsCanonicalMemory : (State.reset.withFetchWord 16 0xF133).Inv ∧
    ∃ t, step ((State.reset.withFetchWord 16 0xF133).setIndex 0xFFD) = .next t := ⟨by decide, _, rfl⟩
theorem witness_HostRunsKeepCanonicalMemory : State.reset.Inv ∧
    ∃ t, performAll [.loadProgram [0x12, 0x00], .cycle] State.reset = .next t := ⟨by decide, _, rfl⟩
theorem witness_FontNeverChangesUnderFaultPolicy : fontWrite = .fault ∧ State.reset.FontIntact ∧
    ∃ t, performAll [.loadProgram [0xF0, 0x55], .cycle] State.reset = .next t := ⟨rfl, fun _ _ => rfl, _, rfl⟩
theorem witness_OnlyNamedRegistersChange : exec (.ldImm 0x3#4 0x07#8) State.reset =
    .next (State.reset.advance.setReg 0x3#4 0x07#8) ∧ ¬ (Instr.ldImm 0x3#4 0x07#8).WritesReg 0x4#4 := by
  refine ⟨rfl, ?_⟩
  show ¬ (0x4#4 = 0x3#4)
  decide
theorem witness_OnlyStoredBytesChange :
    ∃ t, exec (.ldBcd 0x3#4) (State.reset.setIndex 0xFFD) = .next t ∧ t.halt = none := ⟨_, rfl, rfl⟩
theorem witness_OnlyOwnInstructionsWriteSpecialState : exec .nop State.reset = .next State.reset.advance := rfl
theorem witness_PcAdvancesByTwoUnlessRedirected : State.reset.halt = none ∧
    exec .nop State.reset = .next State.reset.advance ∧ State.reset.advance.halt = none ∧
    Instr.nop.redirectsPc = false := ⟨rfl, rfl, rfl, rfl⟩
theorem witness_RetPopsOrUnderflows : 0 < (stacked 1).sp.val ∧ (stacked 0).sp.val = 0 := by decide
theorem witness_CallPushesOrOverflows : (stacked 15).sp.val < 16 ∧ (stacked 16).sp.val = 16 := by decide
theorem witness_ReturnComesBackAfterCall : (stacked 15).sp.val < 16 := by decide
theorem witness_flag_destination_is_not_VF : (0xE#4 : RegIdx) ≠ VF := by decide
theorem witness_StoreBcdWritesThreeDigits : (State.reset.setIndex 0xFFD).CanStore 3 ∧
    (State.reset.setIndex 0x050).CanStore 3 ∧ fontWrite = .fault ∧ (State.reset.setIndex 0x04F).effAddr 0 ≤ 0x04F ∧
    0xFFF < (State.reset.setIndex 0xFFE).effAddr 2 :=
  ⟨⟨by decide, fun _ => by decide⟩, ⟨by decide, fun _ => by decide⟩, rfl, by decide, by decide⟩
theorem witness_StoreRegistersWritesBlock : (State.reset.setIndex 0xFF0).CanStore (0xF#4).toNat.succ ∧
    (State.reset.setIndex 0x04F).effAddr 0 ≤ 0x04F ∧ 0xFFF < (State.reset.setIndex 0xFF1).effAddr (0xF#4).toNat :=
  ⟨⟨by decide, fun _ => by decide⟩, by decide, by decide⟩
theorem witness_LoadRegistersReadsBlock : (State.reset.setIndex 0xFF0).CanRead (0xF#4).toNat.succ ∧
    0xFFF < (State.reset.setIndex 0x1000).effAddr (0x0#4).toNat := by
  constructor
  · show 0xFF0 + 16 ≤ 0x1000
    decide
  · decide
theorem witness_LoadAfterStoreRestoresRegisters : (State.reset.setIndex 0xFFF).CanStore (0x0#4).toNat.succ :=
  ⟨by decide, fun _ => by decide⟩
theorem witness_DrawXorsSpriteWithCollision : (State.reset.setIndex 0xFFE).CanRead (0x2#4).toNat ∧ 0 < (0x3#4).toNat ∧
    0xFFF < (State.reset.setIndex 0xFFE).effAddr ((0x3#4).toNat - 1) := by
  refine ⟨?_, by decide, by decide⟩
  show 0xFFE + 2 ≤ 0x1000
  decide
theorem witness_DrawTwiceRestoresDisplay : (0x0#4 : RegIdx) ≠ VF ∧ (0x1#4 : RegIdx) ≠ VF ∧
    State.reset.CanRead (0x5#4).toNat := by
  refine ⟨by decide, by decide, ?_⟩
  show 0 + 5 ≤ 0x1000
  decide
theorem witness_KeySkips : ((regs [(5, 0x0F)]).reg 5).toNat < 16 ∧ 15 < ((regs [(5, 0x10)]).reg 5).toNat := by decide
theorem witness_WaitKeyTakesLowestOrWaits : (holding 15).key[15] = true ∧
    (∀ j (_ : j < 15), (holding 15).key[j] = false) ∧ ∀ k (_ : k < 16), State.reset.key[k] = false := by decide
theorem witness_SetKeyWritesOneKey : State.reset.setKey 15 true = (holding 15, .ok) ∧
    State.reset.setKey 16 true = (State.reset, .error .keyIndexInvalid) := by decide
theorem witness_LoadProgramCopiesBuffer : (List.replicate 3584 (0xAA : Byte)).length ≤ 3584 ∧
    3584 < (List.replicate 3585 (0xAA : Byte)).length := by
  rw [List.length_replicate, List.length_replicate]
  decide

end Sys2Proof.Tests
end

section
/-! Family 10_state: the state's reset values, the invariant over a step, and the frames of an execution. Which field
each instruction may write is said once, in `Frame` and `exec_frame`; the frame obligations read it off. -/

namespace Sys2Proof.Machine

/-! ## The reset state -/

theorem length_font : font.length = Config.fontSize := rfl

/-- The reset contents of the font's addresses are the bytes of `FONT`. -/
theorem font_getElem? {a : Nat} (h : a < Config.fontSize) : font[a]? = some (Memory.atReset a) := by
  rw [Memory.atReset, List.getD_eq_getElem?_getD, List.getElem?_eq_getElem h, Option.getD_some]

/-- Above the font the reset contents are zeros. -/
theorem Memory.atReset_of_fontSize_le {a : Nat} (h : Config.fontSize ≤ a) : Memory.atReset a = 0 :=
  List.getD_eq_default _ _ h

/-- Settles O15: the reset state lists no cell. -/
theorem resetStateMeetsInvariant : Obligations.ResetStateMeetsInvariant := Memory.wf_nil

/-- Settles O53: what memory reads as is `Memory.atReset`, every other field is a literal of `State.reset`. -/
theorem resetStateValues : Obligations.ResetStateValues := by
  refine ⟨length_font, fun _ => font_getElem?, fun _ => Memory.atReset_of_fontSize_le, fun r => ?_,
    rfl, rfl, rfl, fun k hk => ?_, rfl, rfl, fun k hk => ?_, lit_blankDisplay, rfl⟩
  all_goals exact Vector.getElem_replicate _

/-! ## The invariant over a step -/

/-- An execution keeps the canonical form: it stores only where the check of its bytes has passed. -/
theorem exec_keeps_inv {i : Instr} {s t : State} (hs : s.Inv) (h : exec i s = .next t) : t.Inv := by
  rcases exec_inversion h with ⟨f, -, rfl⟩ | ⟨-, -, hmem | ⟨bs, -, ⟨hend, -⟩, hmem⟩⟩
  · exact hs
  · rwa [State.Inv, hmem]
  · rw [State.Inv, hmem]
    exact Memory.wf_writeBlock hs bs hend

/-- A cycle keeps the canonical form: only its execute phase can write memory. -/
theorem step_keeps_inv {s t : State} (hs : s.Inv) (h : step s = .next t) : t.Inv := by
  rcases step_cases s with ⟨-, he⟩ | ⟨-, -, he⟩ | ⟨w, bad, -, -, -, he⟩ | ⟨w, i, -, -, -, he⟩ <;> rw [he] at h
  · cases h; exact hs
  · cases h; exact hs
  · cases h; exact hs
  · exact exec_keeps_inv hs h

/-- Settles O16, by the inversion of a cycle and of an execution. -/
theorem stepKeepsCanonicalMemory : Obligations.StepKeepsCanonicalMemory := fun _ _ => step_keeps_inv

/-! ## The frame of an execution -/

theorem State.setReg_reg_ne (s : State) {x r : RegIdx} (b : Byte) (h : r ≠ x) : (s.setReg x b).reg r = s.reg r := by
  rw [State.setReg_reg, if_neg h]

/-- A block filled in from V0 leaves every register past its last byte alone. -/
theorem State.setRegs_fillRegs_reg (s : State) (bs : List Byte) {r : RegIdx} (h : bs.length ≤ r.toNat) :
    (s.setRegs (fillRegs 0 bs s.v)).reg r = s.reg r := by
  rw [State.setRegs_reg, getElem_fillRegs, if_neg (by omega)]
  rfl

/-- A skip, taken or not, writes the program counter only. -/
theorem State.advance_skipIf_rest (s : State) (c : Bool) :
    s.advance.skipIf c = { s with pc := (s.advance.skipIf c).pc } := by
  cases c <;> rfl

/-- What a completed execution leaves alone by the access table (spec/10_state.md R34), each field with the
instructions that may write it, and the advance of the program counter (R23). A field may be left out where the update
says by definition that it is kept, so a proof names what the instruction writes. -/
structure Frame (i : Instr) (s t : State) : Prop where
  regs : SameRegsExcept i.WritesReg s t := by intro _ _; rfl
  stack : i ≠ .ret → (∀ nnn, i ≠ .call nnn) → SameStack s t := by intros; exact ⟨rfl, rfl⟩
  disp : i ≠ .cls → (∀ x y n, i ≠ .drw x y n) → t.disp = s.disp := by intros; rfl
  dt : (∀ x, i ≠ .ldDelay x) → t.dt = s.dt := by intros; rfl
  st : (∀ x, i ≠ .ldSound x) → t.st = s.st := by intros; rfl
  index : (∀ nnn, i ≠ .ldIndex nnn) → (∀ x, i ≠ .addIndex x) → (∀ x, i ≠ .ldFont x) → t.index = s.index := by
    intros; rfl
  pc : i.redirectsPc = false → t.pc = s.pc + 2 := by intros; rfl

/-- The frame of a skip. -/
theorem Frame.of_skipIf {i : Instr} (hi : i.redirectsPc = true) (s : State) (c : Bool) :
    Frame i s (s.advance.skipIf c) := by
  rw [State.advance_skipIf_rest]
  exact { pc := fun hn => absurd (hn.symm.trans hi) (by decide) }

/-- The frame of an instruction that writes a result and its flag. -/
theorem Frame.of_writeWithFlag {i : Instr} {x : RegIdx} (hi : ∀ r, r = x ∨ r = VF → i.WritesReg r) (s : State)
    (p : VfDestPolicy) (o : ClauseOrder) (b f : Byte) : Frame i s (s.advance.writeWithFlag p o x b f) := by
  have hregs : SameRegsExcept i.WritesReg s (s.advance.writeWithFlag p o x b f) := fun r hr =>
    State.writeWithFlag_reg_ne _ _ _ _ _ _ (fun e => hr (hi r (.inl e))) fun e => hr (hi r (.inr e))
  rw [State.writeWithFlag_rest] at hregs ⊢
  exact { regs := hregs }

/-- Everything an execution can be, field by field: the taking of a fault, or a completion in the instruction's
frame. -/
theorem exec_frame {i : Instr} {s t : State} (h : exec i s = .next t) :
    (∃ f w, t = s.enterFault f w) ∨ Frame i s t := by
  cases i <;> simp only [exec] at h
  case nop => cases h; exact .inr {}
  case cls => cases h; exact .inr { disp := fun hi _ => absurd rfl hi }
  case ldDelay x => cases h; exact .inr { dt := fun hi => absurd rfl (hi x) }
  case ldSound x => cases h; exact .inr { st := fun hi => absurd rfl (hi x) }
  case ldIndex nnn => cases h; exact .inr { index := fun hi _ _ => absurd rfl (hi nnn) }
  case addIndex x => cases h; exact .inr { index := fun _ hi _ => absurd rfl (hi x) }
  case ldFont x => cases h; exact .inr { index := fun _ _ hi => absurd rfl (hi x) }
  case jp | jpV0 => cases h; exact .inr { pc := nofun }
  case seImm | sneImm | seReg | sneReg => cases h; exact .inr (.of_skipIf rfl s _)
  case ldImm | addImm | ldReg | orReg | andReg | xorReg | rnd | ldFromDelay =>
    cases h
    exact .inr { regs := fun r hr => State.setReg_reg_ne _ _ hr }
  case addReg | subReg | shr | subnReg | shl => cases h; exact .inr (.of_writeWithFlag (fun _ => id) s _ _ _ _)
  case ret =>
    unfold execRet at h
    rcases s.advance.pop_cases with ⟨-, hp⟩ | ⟨a, u, hp, -, -, hu, -⟩ <;> rw [hp] at h <;> cases h
    · exact .inl ⟨_, _, rfl⟩
    · rw [hu]; exact .inr { stack := fun hi _ => absurd rfl hi, pc := nofun }
  case call nnn =>
    unfold execCall at h
    rcases s.advance.push_cases s.advance.pc with ⟨-, hp⟩ | ⟨u, hp, -, -, hu, -⟩ <;> rw [hp] at h <;> cases h
    · exact .inl ⟨_, _, rfl⟩
    · rw [hu]; exact .inr { stack := fun _ hi => absurd rfl (hi nnn), pc := nofun }
  case drw x y n =>
    unfold execDrw at h
    split at h <;> cases h
    · exact .inl ⟨_, _, rfl⟩
    · rw [State.drawAt_eq]
      exact .inr { regs := fun r hr => State.setReg_reg_ne _ _ hr, disp := fun _ hi => absurd rfl (hi x y n) }
  case skp | sknp =>
    simp only [execSkp, execSknp] at h
    split at h <;> cases h
    · exact .inl ⟨_, _, rfl⟩
    · exact .inr (.of_skipIf rfl s _)
  case ldKey x =>
    unfold execLdKey at h
    split at h <;> cases h
    · exact .inr { regs := fun r hr => State.setReg_reg_ne _ _ hr }
    · exact .inr { pc := nofun }
  case ldBcd | storeRegs =>
    simp only [execLdBcd, execStoreRegs] at h
    split at h <;> cases h
    · exact .inl ⟨_, _, rfl⟩
    · exact .inr {}
  case loadRegs x =>
    unfold execLoadRegs at h
    split at h <;> cases h
    · exact .inl ⟨_, _, rfl⟩
    · refine .inr { regs := fun r hr => s.advance.setRegs_fillRegs_reg _ ?_ }
      rw [State.readAtIndex, Memory.length_readBlock]
      exact Nat.lt_of_not_le hr

/-- No execution changes the key states (spec/10_state.md R29). -/
theorem exec_keeps_key {i : Instr} {s t : State} (h : exec i s = .next t) : t.key = s.key := by
  rcases exec_inversion h with ⟨f, -, rfl⟩ | hk
  · rfl
  · exact hk.key

/-- Settles O19: a fault writes no register, and a completion those of its frame. -/
theorem onlyNamedRegistersChange : Obligations.OnlyNamedRegistersChange := by
  intro i s t h
  rcases exec_frame h with ⟨f, w, rfl⟩ | hf
  · exact fun r _ => State.enterFault_reg s f w r
  · exact hf.regs

/-- Settles O21: a fault writes none of these fields, and a completion those of its frame. -/
theorem onlyOwnInstructionsWriteSpecialState : Obligations.OnlyOwnInstructionsWriteSpecialState := by
  intro i s t h
  have hkey := exec_keeps_key h
  rcases exec_frame h with ⟨f, w, rfl⟩ | hf
  · exact ⟨fun _ _ => ⟨rfl, rfl⟩, fun _ _ => rfl, fun _ => rfl, fun _ => rfl, fun _ _ _ => rfl, hkey⟩
  · exact ⟨hf.stack, hf.disp, hf.dt, hf.st, hf.index, hkey⟩

/-- Settles O22: a state that has taken a fault is halted, and a completion advances by its frame. -/
theorem pcAdvancesByTwoUnlessRedirected : Obligations.PcAdvancesByTwoUnlessRedirected := by
  intro i s t _ h hrun hi
  rcases exec_frame h with ⟨f, w, rfl⟩ | hf
  · cases hrun
  · exact hf.pc hi

end Sys2Proof.Machine
end

section
/-! Family 20_memory: what memory can be after an execution, a cycle and a host operation. Every store goes through the
checks of spec/20_memory.md R62 to R64, and a program lies above the font, so one relation, `Memory.Stored`, says what
any operation but a reset can make of memory. -/

namespace Sys2Proof.Machine

/-! ## What an operation can make of memory -/

/-- `m'` is `m` after a store the checks allow: of a block, perhaps empty, inside the address space and, where the font
is protected (spec/20_memory.md R63), past it. -/
def Memory.Stored (m m' : Memory) : Prop :=
  ∃ a bs, a + bs.length ≤ Config.memSize ∧ (fontWrite = .fault → Config.fontSize ≤ a) ∧ m' = m.writeBlock a bs

theorem Memory.Stored.refl (m : Memory) : m.Stored m := ⟨Config.fontSize, [], by decide, fun _ => le_rfl, rfl⟩

/-- No allowed store changes a byte of the protected font. -/
theorem Memory.Stored.read_font {m m' : Memory} (h : m.Stored m') (hp : fontWrite = .fault) {a : Nat}
    (ha : a < Config.fontSize) : m'.read a = m.read a := by
  obtain ⟨b, bs, -, hfont, rfl⟩ := h
  exact m.read_writeBlock_outside bs (.inl (ha.trans_le (hfont hp)))

/-- An execution stores only where the check of its bytes has passed. -/
theorem exec_mem {i : Instr} {s t : State} (h : exec i s = .next t) : s.mem.Stored t.mem := by
  rcases exec_inversion h with ⟨f, -, rfl⟩ | ⟨-, -, hmem | ⟨bs, -, ⟨hend, hfont⟩, hmem⟩⟩
  · exact .refl _
  · rw [hmem]; exact .refl _
  · exact ⟨_, bs, hend, hfont, hmem⟩

/-- A cycle stores only in its execute phase. -/
theorem step_mem {s t : State} (h : step s = .next t) : s.mem.Stored t.mem := by
  rcases step_cases s with ⟨-, he⟩ | ⟨-, -, he⟩ | ⟨w, bad, -, -, -, he⟩ | ⟨w, i, -, -, -, he⟩ <;> rw [he] at h
  · cases h; exact .refl _
  · cases h; exact .refl _
  · cases h; exact .refl _
  · exact exec_mem h

/-! ## Host operations -/

/-- Everything `loadProgram` can do: reject a program that is too large, or write its bytes from the program origin. -/
theorem State.loadProgram_cases (s : State) (bs : List Byte) :
    (Config.maxProgram < bs.length ∧ s.loadProgram bs = (s, .error .programTooLarge)) ∨
    (bs.length ≤ Config.maxProgram ∧
      s.loadProgram bs = (s.setMem (s.mem.writeBlock Config.programOrigin bs), .ok)) := by
  by_cases h : Config.maxProgram < bs.length
  · exact .inl ⟨h, if_pos h⟩
  · exact .inr ⟨Nat.le_of_not_lt h, if_neg h⟩

@[simp] theorem State.setKey_mem (s : State) (k : Nat) (b : Bool) : (s.setKey k b).1.mem = s.mem := by
  unfold State.setKey; split <;> rfl

/-- The state after a `cycle` operation is that after a step. -/
theorem perform_cycle_next {s t : State} {r : Reply} (h : perform .cycle s = .next (t, r)) :
    step s = .next t ∧ r = cycleReply s t := by
  simp only [perform] at h
  split at h <;> cases h
  next hs => exact ⟨hs, rfl⟩

/-- What a host operation can make of memory: a reset empties the list, every other operation makes an allowed store. -/
theorem perform_mem {e : HostEvent} {s t : State} {r : Reply} (h : perform e s = .next (t, r)) :
    t.mem = [] ∨ s.mem.Stored t.mem := by
  cases e with
  | reset => cases h; exact .inl rfl
  | loadProgram bs =>
    rcases s.loadProgram_cases bs with ⟨-, hl⟩ | ⟨hlen, hl⟩ <;> rw [perform, hl] at h <;> cases h
    · exact .inr (.refl _)
    · exact .inr ⟨_, bs, Nat.add_le_add_left hlen _, fun _ => by decide, rfl⟩
  | cycle => exact .inr (step_mem (perform_cycle_next h).1)
  | tickTimers => cases h; exact .inr (.refl _)
  | setKey k b =>
    have ht : (s.setKey k b).1 = t := congrArg Prod.fst (Host.Outcome.next.inj h)
    rw [← ht, State.setKey_mem]
    exact .inr (.refl _)
  | readDisplay => cases h; exact .inr (.refl _)

/-- A run takes its first operation, then the rest from the state that leaves. -/
theorem performAll_cons_next {e : HostEvent} {es : List HostEvent} {s t : State}
    (h : performAll (e :: es) s = .next t) : ∃ u r, perform e s = .next (u, r) ∧ performAll es u = .next t := by
  simp only [performAll] at h
  split at h
  · next u r he => exact ⟨u, r, he, h⟩
  · cases h
  · cases h

/-- What each operation of a run keeps, the run keeps. -/
theorem performAll_keeps {P : State → Prop} {es : List HostEvent} {s t : State}
    (hstep : ∀ e ∈ es, ∀ s t r, P s → perform e s = .next (t, r) → P t) (hs : P s)
    (h : performAll es s = .next t) : P t := by
  induction es generalizing s with
  | nil => cases h; exact hs
  | cons e es ih =>
    obtain ⟨u, r, he, hes⟩ := performAll_cons_next h
    exact ih (fun e' he' => hstep e' (by simp [he'])) (hstep e (by simp) s u r hs he) hes

/-! ## The obligations -/

/-- A host operation keeps the protected font: a reset restores its bytes, and no allowed store reaches them. -/
theorem perform_keeps_font (hp : fontWrite = .fault) {e : HostEvent} {s t : State} {r : Reply} (hs : s.FontIntact)
    (h : perform e s = .next (t, r)) : t.FontIntact := fun a ha => by
  rcases perform_mem h with hmem | hmem
  · rw [hmem, Memory.read_nil]
  · rw [hmem.read_font hp ha, hs a ha]

/-- Settles O18: every operation of the run keeps the font. -/
theorem fontNeverChangesUnderFaultPolicy : Obligations.FontNeverChangesUnderFaultPolicy :=
  fun hp _ _ _ => performAll_keeps fun _ _ _ _ _ => perform_keeps_font hp

/-- Settles O20: a fault stores nothing, and a completion only the instruction's own block at `I`. -/
theorem onlyStoredBytesChange : Obligations.OnlyStoredBytesChange := by
  intro i s t h b hb
  rcases exec_inversion h with ⟨f, -, rfl⟩ | ⟨-, -, hmem | ⟨bs, hlen, -, hmem⟩⟩
  · rfl
  · rw [hmem]
  · rw [hmem]
    exact s.mem.read_writeBlock_outside bs (hlen ▸ hb)

end Sys2Proof.Machine
end

section
/-! Family 30_encoding: what decode answers is said once, in `Decoded.Describes` and `decode_describes`: an instruction
whose encoding is the word, or the word itself where it is in the table of illegal words. With `decode_encode` this
makes the decoder, the encoder, that table and the opcode map of spec/opcode_table.json agree. -/

namespace Sys2Proof

/-! ## Decode of encode -/

/-- Every instruction is what its word decodes to: the family is put in and read back, then the operands and, where the
family has one, the selector. -/
theorem decode_encode (i : Instr) : decode (encode i) = .instr i := by
  cases i with
  | nop | cls | ret => rfl
  | jp | call | ldIndex | jpV0 | seImm | sneImm | ldImm | addImm | rnd | drw => simp [encode, decode]
  | seReg | sneReg => simp [encode, decode, decodeSkipReg]
  | ldReg | orReg | andReg | xorReg | addReg | subReg | shr | subnReg | shl => simp [encode, decode, decodeFamily8]
  | skp | sknp => simp [encode, decode, decodeFamilyE]
  | ldFromDelay | ldKey | ldDelay | ldSound | addIndex | ldFont | ldBcd | storeRegs | loadRegs =>
    simp [encode, decode, decodeFamilyF]

/-- Settles O2, instruction by instruction. -/
theorem decodeOfEncodeIsTheInstruction : Obligations.DecodeOfEncodeIsTheInstruction := decode_encode

/-! ## What decode answers -/

/-- The word is in the table of illegal words (spec/30_encoding.md R85). -/
abbrev IllegalWord (w : Word) : Prop :=
  (wordFamily w = 0x0#4 ∧ fieldNNN w ≠ 0x000#12 ∧ fieldNNN w ≠ 0x0E0#12 ∧ fieldNNN w ≠ 0x0EE#12) ∨
  (wordFamily w = 0x5#4 ∧ fieldN w ≠ 0x0#4) ∨
  (wordFamily w = 0x8#4 ∧ fieldN w ∈ [0x8#4, 0x9#4, 0xA#4, 0xB#4, 0xC#4, 0xD#4, 0xF#4]) ∨
  (wordFamily w = 0x9#4 ∧ fieldN w ≠ 0x0#4) ∨
  (wordFamily w = 0xE#4 ∧ fieldNN w ≠ 0x9E#8 ∧ fieldNN w ≠ 0xA1#8) ∨
  (wordFamily w = 0xF#4 ∧ fieldNN w ∉ [0x07#8, 0x0A#8, 0x15#8, 0x18#8, 0x1E#8, 0x29#8, 0x33#8, 0x55#8, 0x65#8])

/-- A right answer to decoding the word: an instruction it encodes, or, for an illegal word, the word itself. -/
def Decoded.Describes (w : Word) : Decoded → Prop
  | .instr i => encode i = w
  | .decodeFailure bad => bad = w ∧ IllegalWord w

section
variable {w : Word} {f : BitVec 4}

theorem wordNNN_of_family (hf : wordFamily w = f) : wordNNN f (fieldNNN w) = w := by rw [← hf, wordNNN_fields]

theorem wordXNN_of_family (hf : wordFamily w = f) : wordXNN f (fieldX w) (fieldNN w) = w := by
  rw [← hf, wordXNN_fields]

theorem wordXYN_of_family (hf : wordFamily w = f) : wordXYN f (fieldX w) (fieldY w) (fieldN w) = w := by
  rw [← hf, wordXYN_fields]

/-- A word whose selector byte has the value of `nn`. -/
theorem wordXNN_of_selector {nn : Byte} (hf : wordFamily w = f) (hn : (fieldNN w).toNat = nn.toNat) :
    wordXNN f (fieldX w) nn = w := by
  rw [← BitVec.eq_of_toNat_eq hn, wordXNN_of_family hf]

/-- A word whose selector nibble has the value of `n`. -/
theorem wordXYN_of_selector {n : Nibble} (hf : wordFamily w = f) (hn : (fieldN w).toNat = n.toNat) :
    wordXYN f (fieldX w) (fieldY w) n = w := by
  rw [← BitVec.eq_of_toNat_eq hn, wordXYN_of_family hf]

/-- In family 0 a word is its low 12 bits. -/
theorem fieldNNN_ne_of_family0 (hf : wordFamily w = 0x0#4) {nnn : Addr12} (h : w ≠ wordNNN 0x0#4 nnn) :
    fieldNNN w ≠ nnn := fun e => h (by rw [← e, wordNNN_of_family hf])

theorem decodeFamily0_describes (hf : wordFamily w = 0x0#4) : (decodeFamily0 w).Describes w := by
  unfold decodeFamily0
  split_ifs with h0 h1 h2
  · exact h0.symm
  · exact h1.symm
  · exact h2.symm
  · exact ⟨rfl, .inl ⟨hf, fieldNNN_ne_of_family0 hf h0, fieldNNN_ne_of_family0 hf h1, fieldNNN_ne_of_family0 hf h2⟩⟩

/-- Families 5 and 9, whose selector is a nibble 4 of 0. -/
theorem decodeSkipReg_describes {i : Instr} (hi : encode i = wordXYN f (fieldX w) (fieldY w) 0x0#4)
    (hf : wordFamily w = f) (hill : fieldN w ≠ 0x0#4 → IllegalWord w) : (decodeSkipReg w i).Describes w := by
  unfold decodeSkipReg
  split_ifs with hn
  · exact hi.trans (hn ▸ wordXYN_of_family hf)
  · exact ⟨rfl, hill hn⟩

theorem decodeFamily8_describes (hf : wordFamily w = 0x8#4) : (decodeFamily8 w).Describes w := by
  unfold decodeFamily8
  split
  case h_10 =>
    refine ⟨rfl, .inr (.inr (.inl ⟨hf, ?_⟩))⟩
    rcases nibble_cases (fieldN w) with h | h | h | h | h | h | h | h | h | h | h | h | h | h | h | h <;> simp_all
  all_goals
    next h => exact wordXYN_of_selector hf h

theorem decodeFamilyE_describes (hf : wordFamily w = 0xE#4) : (decodeFamilyE w).Describes w := by
  unfold decodeFamilyE
  split
  case h_3 h0 h1 =>
    exact ⟨rfl, .inr (.inr (.inr (.inr (.inl ⟨hf, fun e => h0 (e ▸ rfl), fun e => h1 (e ▸ rfl)⟩))))⟩
  all_goals
    next h => exact wordXNN_of_selector hf h

theorem decodeFamilyF_describes (hf : wordFamily w = 0xF#4) : (decodeFamilyF w).Describes w := by
  unfold decodeFamilyF
  split
  case h_10 =>
    exact ⟨rfl, .inr (.inr (.inr (.inr (.inr ⟨hf, by simp_all [← BitVec.toNat_inj]⟩))))⟩
  all_goals
    next h => exact wordXNN_of_selector hf h

end

/-- What decode answers is right, family by family. -/
theorem decode_describes (w : Word) : (decode w).Describes w := by
  rcases nibble_cases (wordFamily w) with h | h | h | h | h | h | h | h | h | h | h | h | h | h | h | h
  · rw [decode_family0 h]; exact decodeFamily0_describes h
  · rw [decode_family1 h]; exact wordNNN_of_family h
  · rw [decode_family2 h]; exact wordNNN_of_family h
  · rw [decode_family3 h]; exact wordXNN_of_family h
  · rw [decode_family4 h]; exact wordXNN_of_family h
  · rw [decode_family5 h]; exact decodeSkipReg_describes rfl h fun hn => .inr (.inl ⟨h, hn⟩)
  · rw [decode_family6 h]; exact wordXNN_of_family h
  · rw [decode_family7 h]; exact wordXNN_of_family h
  · rw [decode_family8 h]; exact decodeFamily8_describes h
  · rw [decode_family9 h]; exact decodeSkipReg_describes rfl h fun hn => .inr (.inr (.inr (.inl ⟨h, hn⟩)))
  · rw [decode_familyA h]; exact wordNNN_of_family h
  · rw [decode_familyB h]; exact wordNNN_of_family h
  · rw [decode_familyC h]; exact wordXNN_of_family h
  · rw [decode_familyD h]; exact wordXYN_of_family h
  · rw [decode_familyE h]; exact decodeFamilyE_describes h
  · rw [decode_familyF h]; exact decodeFamilyF_describes h

theorem encode_of_decode {w : Word} {i : Instr} (h : decode w = .instr i) : encode i = w := by
  have := decode_describes w
  rwa [h] at this

/-- A failure carries the word itself, and the word is in the table. -/
theorem illegal_of_decodeFailure {w bad : Word} (h : decode w = .decodeFailure bad) : bad = w ∧ IllegalWord w := by
  have := decode_describes w
  rwa [h] at this

/-- Settles O3: the instruction that decode answers is one the word encodes. -/
theorem encodeOfDecodeIsTheWord : Obligations.EncodeOfDecodeIsTheWord := fun _ _ => encode_of_decode

/-! ## The illegal words -/

/-- No instruction's word is illegal: it has a family without illegal words, or a selector of its family. -/
theorem not_illegalWord_encode (i : Instr) : ¬ IllegalWord (encode i) := by
  cases i with
  | nop | cls | ret => decide
  | _ => simp [encode]

/-- An illegal word fails to decode, since an instruction that it decoded to would encode as it. -/
theorem decode_of_illegal {w : Word} (h : IllegalWord w) : decode w = .decodeFailure w := by
  cases hd : decode w with
  | instr i => exact absurd (encode_of_decode hd ▸ h) (not_illegalWord_encode i)
  | decodeFailure bad => rw [(illegal_of_decodeFailure hd).1]

/-- Settles O4: a failure is of a listed word, and a listed word is no instruction's encoding. -/
theorem illegalWordsAreTheListedOnes : Obligations.IllegalWordsAreTheListedOnes := fun _ =>
  ⟨⟨fun h => (illegal_of_decodeFailure h).2, decode_of_illegal⟩, fun _ h => (illegal_of_decodeFailure h).1⟩

/-! ## The opcode map -/

section
variable {w m p : Word}

/-! What a row fixes, its words share with its pattern. -/

theorem wordFamily_of_and (hp : w &&& m = p) (hm : wordFamily m = BitVec.allOnes 4) : wordFamily p = wordFamily w := by
  have h : wordFamily (w &&& m) = wordFamily w &&& wordFamily m := BitVec.extractLsb'_and
  rw [← hp, h, hm, BitVec.and_allOnes]

theorem fieldN_of_and (hp : w &&& m = p) (hm : fieldN m = BitVec.allOnes 4) : fieldN p = fieldN w := by
  have h : fieldN (w &&& m) = fieldN w &&& fieldN m := BitVec.extractLsb'_and
  rw [← hp, h, hm, BitVec.and_allOnes]

theorem fieldNN_of_and (hp : w &&& m = p) (hm : fieldNN m = BitVec.allOnes 8) : fieldNN p = fieldNN w := by
  have h : fieldNN (w &&& m) = fieldNN w &&& fieldNN m := BitVec.extractLsb'_and
  rw [← hp, h, hm, BitVec.and_allOnes]

end

/-- The pattern of a row is itself a legal word (spec/30_encoding.md R84, R85). -/
theorem opcodeRows_pattern_legal : ∀ r ∈ opcodeRows, ¬ IllegalWord r.pattern := by decide

/-- What the rows of the opcode map fix (spec/30_encoding.md R84): the whole word, the family alone where the family has
no illegal word, or the family and its selector. -/
theorem opcodeRows_masks : ∀ r ∈ opcodeRows,
    r.mask = 0xFFFF#16 ∨
    (r.mask = 0xF000#16 ∧ wordFamily r.pattern ∉ [0x0#4, 0x5#4, 0x8#4, 0x9#4, 0xE#4, 0xF#4]) ∨
    (r.mask = 0xF00F#16 ∧ wordFamily r.pattern ∈ [0x5#4, 0x8#4, 0x9#4]) ∨
    (r.mask = 0xF0FF#16 ∧ wordFamily r.pattern ∈ [0xE#4, 0xF#4]) := by decide

/-- No row admits an illegal word: the word would agree with the row's own pattern in the family and the selector. -/
theorem not_illegalWord_of_rowAdmits {r : OpcodeRow} (hr : r ∈ opcodeRows) {w : Word} (h : rowAdmits r w = true) :
    ¬ IllegalWord w := by
  have hp : w &&& r.mask = r.pattern := beq_iff_eq.mp h
  have hl := opcodeRows_pattern_legal r hr
  rcases opcodeRows_masks r hr with hm | ⟨hm, hf⟩ | ⟨hm, hf⟩ | ⟨hm, hf⟩ <;> rw [hm] at hp
  · rwa [← hp, show 0xFFFF#16 = BitVec.allOnes 16 from rfl, BitVec.and_allOnes] at hl
  · rw [wordFamily_of_and hp rfl] at hf
    rintro (⟨e, -⟩ | ⟨e, -⟩ | ⟨e, -⟩ | ⟨e, -⟩ | ⟨e, -⟩ | ⟨e, -⟩) <;> simp [e] at hf
  · have hfam := wordFamily_of_and hp rfl
    have hsel := fieldN_of_and hp rfl
    simp only [hfam, List.mem_cons, List.not_mem_nil, or_false] at hf
    rcases hf with hf | hf | hf <;> simpa [IllegalWord, hfam, hsel, hf] using hl
  · have hfam := wordFamily_of_and hp rfl
    have hsel := fieldNN_of_and hp rfl
    simp only [hfam, List.mem_cons, List.not_mem_nil, or_false] at hf
    rcases hf with hf | hf <;> simpa [IllegalWord, hfam, hsel, hf] using hl

theorem rowsOverlap_comm (r q : OpcodeRow) : rowsOverlap r q = rowsOverlap q r := BEq.comm

/-- Two rows that admit one word are one row: their patterns agree on the bits both fix. -/
theorem rowAdmits_unique {r q : OpcodeRow} (hr : r ∈ opcodeRows) (hq : q ∈ opcodeRows) {w : Word}
    (hrw : rowAdmits r w = true) (hqw : rowAdmits q w = true) : q = r := by
  have hover : rowsOverlap q r = true := by
    rw [rowsOverlap, ← beq_iff_eq.mp hrw, ← beq_iff_eq.mp hqw, beq_iff_eq]
    ac_rfl
  have : Std.Symm (fun r q => rowsOverlap r q = false) := ⟨fun r q h => by rwa [rowsOverlap_comm]⟩
  by_contra hne
  have hdis := opcodeRows_disjoint.forall hq hr hne
  rw [hover] at hdis
  cases hdis

/-- The instruction's own row admits its word. -/
theorem encodesOwnRow : ∀ i : Instr, Laws.EncodesOwnRow.Statement i
  | .nop => Laws.EncodesOwnRow.nop
  | .cls => Laws.EncodesOwnRow.cls
  | .ret => Laws.EncodesOwnRow.ret
  | .jp nnn => Laws.EncodesOwnRow.jp nnn
  | .call nnn => Laws.EncodesOwnRow.call nnn
  | .seImm x nn => Laws.EncodesOwnRow.seImm x nn
  | .sneImm x nn => Laws.EncodesOwnRow.sneImm x nn
  | .seReg x y => Laws.EncodesOwnRow.seReg x y
  | .ldImm x nn => Laws.EncodesOwnRow.ldImm x nn
  | .addImm x nn => Laws.EncodesOwnRow.addImm x nn
  | .ldReg x y => Laws.EncodesOwnRow.ldReg x y
  | .orReg x y => Laws.EncodesOwnRow.orReg x y
  | .andReg x y => Laws.EncodesOwnRow.andReg x y
  | .xorReg x y => Laws.EncodesOwnRow.xorReg x y
  | .addReg x y => Laws.EncodesOwnRow.addReg x y
  | .subReg x y => Laws.EncodesOwnRow.subReg x y
  | .shr x y => Laws.EncodesOwnRow.shr x y
  | .subnReg x y => Laws.EncodesOwnRow.subnReg x y
  | .shl x y => Laws.EncodesOwnRow.shl x y
  | .sneReg x y => Laws.EncodesOwnRow.sneReg x y
  | .ldIndex nnn => Laws.EncodesOwnRow.ldIndex nnn
  | .jpV0 nnn => Laws.EncodesOwnRow.jpV0 nnn
  | .rnd x nn => Laws.EncodesOwnRow.rnd x nn
  | .drw x y n => Laws.EncodesOwnRow.drw x y n
  | .skp x => Laws.EncodesOwnRow.skp x
  | .sknp x => Laws.EncodesOwnRow.sknp x
  | .ldFromDelay x => Laws.EncodesOwnRow.ldFromDelay x
  | .ldKey x => Laws.EncodesOwnRow.ldKey x
  | .ldDelay x => Laws.EncodesOwnRow.ldDelay x
  | .ldSound x => Laws.EncodesOwnRow.ldSound x
  | .addIndex x => Laws.EncodesOwnRow.addIndex x
  | .ldFont x => Laws.EncodesOwnRow.ldFont x
  | .ldBcd x => Laws.EncodesOwnRow.ldBcd x
  | .storeRegs x => Laws.EncodesOwnRow.storeRegs x
  | .loadRegs x => Laws.EncodesOwnRow.loadRegs x

/-- A word decodes exactly when a row admits it. -/
theorem wordWellFormed_iff {w : Word} : wordWellFormed w = true ↔ ∃ i, decode w = .instr i := by
  rw [wordWellFormed, List.any_eq_true]
  constructor
  · rintro ⟨r, hr, hw⟩
    cases hd : decode w with
    | instr i => exact ⟨i, rfl⟩
    | decodeFailure bad => exact absurd (illegal_of_decodeFailure hd).2 (not_illegalWord_of_rowAdmits hr hw)
  · rintro ⟨i, hd⟩
    obtain ⟨r, hr, -, hw⟩ := encodesOwnRow i
    exact ⟨r, hr, encode_of_decode hd ▸ hw⟩

/-- Settles O5: the row is that of the instruction's mnemonic, and the rows are disjoint. -/
theorem decodeAgreesWithOpcodeTable : Obligations.DecodeAgreesWithOpcodeTable := by
  refine fun w => ⟨wordWellFormed_iff, fun i hd => ?_⟩
  obtain ⟨r, hr, hname, hw⟩ := encodesOwnRow i
  rw [encode_of_decode hd] at hw
  exact ⟨r, hr, hname, hw, fun q hq hqw => rowAdmits_unique hr hq hw hqw⟩

/-- Settles O1: decode evaluates on the twenty-one literals. -/
theorem decodeReadsSpecWords : Obligations.DecodeReadsSpecWords := by
  unfold Obligations.DecodeReadsSpecWords
  decide

end Sys2Proof

namespace Sys2Proof.Machine

/-! ## Fetch and cycle -/

section
variable {s : State}

theorem State.fetch_of_lt (h : s.pc.toNat < 0xFFF) :
    s.fetch = .ok (wordOfBytes (s.mem.read s.pc.toNat) (s.mem.read (s.pc.toNat + 1))) := by
  rcases s.fetch_cases with ⟨hpc, -⟩ | ⟨-, hf⟩
  · omega
  · exact hf

theorem State.fetch_of_ge (h : 0xFFF ≤ s.pc.toNat) : s.fetch = .error (.outOfRangeAccess (max s.pc.toNat 0x1000)) := by
  rcases s.fetch_cases with ⟨-, hf⟩ | ⟨hpc, -⟩
  · exact hf
  · omega

theorem step_of_running (h : s.halt = none) : step s = runCycle s := by
  simp [step, cycleState, h]

theorem step_of_fetch_error {f : Fault} (h : s.halt = none) (hf : s.fetch = .error f) :
    step s = .next (s.enterFault f none) := by
  simp [step_of_running h, runCycle, hf]

theorem step_of_decodeFailure {w bad : Word} (h : s.halt = none) (hf : s.fetch = .ok w)
    (hd : decode w = .decodeFailure bad) : step s = .next (s.enterFault .decodeFailure (some bad)) := by
  simp [step_of_running h, runCycle, hf, hd]

theorem step_of_decode {w : Word} {i : Instr} (h : s.halt = none) (hf : s.fetch = .ok w) (hd : decode w = .instr i) :
    step s = exec i s := by
  simp [step_of_running h, runCycle, hf, hd]

end

/-- Settles O6: at 0xFFF the first address above 0xFFF is 0x1000, past it the program counter itself. -/
theorem fetchReadsBigEndianWord : Obligations.FetchReadsBigEndianWord := by
  refine fun s => ⟨fun h => ⟨_, State.fetch_of_lt h, toNat_wordOfBytes _ _⟩, fun h => ?_, fun h => ?_⟩
  · rw [State.fetch_of_ge h.ge, h]; rfl
  · rw [State.fetch_of_ge h.le, Nat.max_eq_left h]

/-- Settles O7: below 0xFFF the fetch answers the word of the two bytes. -/
theorem stepRunsDecodedInstruction : Obligations.StepRunsDecodedInstruction := fun _ _ hrun hpc =>
  step_of_decode hrun (State.fetch_of_lt hpc)

/-- Settles O8: each record is what `State.enterFault` writes. -/
theorem stepTakesFetchAndDecodeFaults : Obligations.StepTakesFetchAndDecodeFaults := fun _ hrun =>
  ⟨fun hpc => step_of_fetch_error hrun (State.fetch_of_ge hpc), fun _ => step_of_decodeFailure hrun⟩

end Sys2Proof.Machine
end

section
/-! Family 41_flow: control flow. An instruction that writes the program counter only completes in an `s.setPc w`, and
what that keeps is said once, in `sameButPc_setPc`; what a call and a return keep is `SameButStackPc`. The decode clauses
are `decode_encode`. -/

namespace Sys2Proof.Machine

/-! ## Writing the program counter only -/

theorem sameButPc_setPc (s : State) (w : Word) : SameButPc s (s.setPc w) :=
  ⟨fun _ => rfl, fun _ => rfl, rfl, ⟨rfl, rfl⟩, ⟨rfl, rfl⟩, rfl, rfl, rfl⟩

/-- A skip passes over 2 bytes more than the advance where its condition holds. -/
theorem State.advance_skipIf (s : State) (c : Bool) :
    s.advance.skipIf c = s.setPc (if c then s.pc + 4 else s.pc + 2) := by
  cases c with
  | false => rfl
  | true =>
    have hpc : s.pc + 2 + 2 = s.pc + 4 := BitVec.add_assoc _ _ _
    exact congrArg s.setPc hpc

/-- An instruction that skips on a test of the condition `p` goes to `pc + 4` or `pc + 2` and keeps everything else. -/
theorem Completes.of_skipIf {i : Instr} {s : State} {c : Bool} {p : Prop} [Decidable p]
    (h : exec i s = .next (s.advance.skipIf c)) (hc : c = true ↔ p) :
    Completes i s fun t => t.pc = (if p then s.pc + 4 else s.pc + 2) ∧ SameButPc s t := by
  refine ⟨_, h, ?_⟩
  rw [State.advance_skipIf]
  exact ⟨if_congr hc rfl rfl, sameButPc_setPc s _⟩

theorem toNat_addrWord (nnn : Addr12) : (addrWord nnn).toNat = nnn.toNat :=
  BitVec.toNat_setWidth_of_le (by decide)

/-- A 12-bit address and a byte add up without wrapping. -/
theorem toNat_addrWord_add_zext16 (nnn : Addr12) (b : Byte) :
    (addrWord nnn + zext16 b).toNat = nnn.toNat + b.toNat := by
  have hn := nnn.isLt
  have hb := b.isLt
  rw [BitVec.toNat_add, toNat_addrWord, BitVec.toNat_setWidth_of_le (by decide)]
  omega

/-- Settles O23: a no-op is the advance. -/
theorem nopOnlyAdvances : Obligations.NopOnlyAdvances :=
  ⟨decode_encode .nop, fun s => ⟨s.setPc (s.pc + 2), rfl, rfl, sameButPc_setPc s _⟩⟩

/-- Settles O25: the jump overwrites the advance. -/
theorem jumpSetsPc : Obligations.JumpSetsPc := fun nnn s =>
  ⟨decode_encode (.jp nnn), s.setPc (addrWord nnn), rfl, toNat_addrWord nnn, sameButPc_setPc s _⟩

/-- Settles O28: both are skips, on equality and on inequality. -/
theorem immediateSkips : Obligations.ImmediateSkips := fun x nn _ =>
  ⟨decode_encode (.seImm x nn), decode_encode (.sneImm x nn), .of_skipIf rfl beq_iff_eq, .of_skipIf rfl bne_iff_ne⟩

/-- Settles O29: both are skips, on equality and on inequality. -/
theorem registerSkips : Obligations.RegisterSkips := fun x y _ =>
  ⟨decode_encode (.seReg x y), decode_encode (.sneReg x y), .of_skipIf rfl beq_iff_eq, .of_skipIf rfl bne_iff_ne⟩

/-- Settles O30: the 16-bit sum of the jump does not wrap. -/
theorem jumpOffsetAddsV0 : Obligations.JumpOffsetAddsV0 := fun nnn s =>
  ⟨decode_encode (.jpV0 nnn), s.setPc (addrWord nnn + zext16 (s.reg 0#4)), rfl, toNat_addrWord_add_zext16 nnn _,
    sameButPc_setPc s _⟩

/-! ## Call and return -/

/-- Everything but the call stack, its pointer and the program counter is the same. -/
def SameButStackPc (s t : State) : Prop :=
  SameRegs s t ∧ SameMem s t ∧ t.index = s.index ∧ SameTimers s t ∧ t.disp = s.disp ∧ SameKeysHalt s t

theorem SameButStackPc.of_eq {s t : State} (h : t = { s with stack := t.stack, sp := t.sp, pc := t.pc }) :
    SameButStackPc s t := by
  rw [h]
  exact ⟨fun _ => rfl, fun _ => rfl, rfl, ⟨rfl, rfl⟩, rfl, rfl, rfl⟩

theorem SameButStackPc.trans {s t u : State} (h : SameButStackPc s t) (h' : SameButStackPc t u) :
    SameButStackPc s u := by
  obtain ⟨hregs, hmem, hindex, ⟨hdt, hst⟩, hdisp, hkey, hhalt⟩ := h
  obtain ⟨hregs', hmem', hindex', ⟨hdt', hst'⟩, hdisp', hkey', hhalt'⟩ := h'
  exact ⟨fun r => (hregs' r).trans (hregs r), fun a => (hmem' a).trans (hmem a), hindex'.trans hindex,
    ⟨hdt'.trans hdt, hst'.trans hst⟩, hdisp'.trans hdisp, hkey'.trans hkey, hhalt'.trans hhalt⟩

/-- A return with an entry in use goes to the newest one and releases it. -/
theorem ret_completes {s : State} (h : 0 < s.sp.val) : Completes .ret s fun t =>
    t.pc = s.stack[s.sp.val - 1] ∧ t.sp.val + 1 = s.sp.val ∧ t.stack = s.stack ∧ SameButStackPc s t := by
  rcases s.advance.pop_cases with ⟨h0, -⟩ | ⟨a, u, hp, -, hsp, hu, ha⟩
  · exact absurd h0 h.ne'
  · have hexec : exec .ret s = .next (u.setPc a) := by simp only [exec, execRet, hp]
    have hstack : u.stack = s.stack := by rw [hu]; rfl
    have hsp : u.sp.val + 1 = s.sp.val := by rw [hsp]; exact Nat.sub_add_cancel h
    exact ⟨_, hexec, ha _, hsp, hstack, .of_eq (by rw [hu]; rfl)⟩

theorem ret_underflows {s : State} (h : s.sp.val = 0) : TakesFault .ret s .stackUnderflow := by
  rcases s.advance.pop_cases with ⟨-, hp⟩ | ⟨a, u, -, hpos, -⟩
  · simp only [TakesFault, exec, execRet, hp]; rfl
  · exact absurd h hpos.ne'

/-- A call with an entry free stores the address after it there and goes to its target. -/
theorem call_completes (nnn : Addr12) {s : State} (h : s.sp.val < 16) : Completes (.call nnn) s fun t =>
    t.pc.toNat = nnn.toNat ∧ t.sp.val = s.sp.val + 1 ∧
    (∀ k (_ : k < 16), t.stack[k] = if k = s.sp.val then s.pc + 2 else s.stack[k]) ∧ SameButStackPc s t := by
  rcases s.advance.push_cases s.advance.pc with ⟨h16, -⟩ | ⟨u, hp, -, hsp, hu, hstack⟩
  · exact absurd h16 h.ne
  · have hexec : exec (.call nnn) s = .next (u.setPc (addrWord nnn)) := by simp only [exec, execCall, hp]
    exact ⟨_, hexec, toNat_addrWord nnn, hsp, hstack, .of_eq (by rw [hu]; rfl)⟩

theorem call_overflows (nnn : Addr12) {s : State} (h : s.sp.val = 16) :
    TakesFault (.call nnn) s (.stackOverflow nnn) := by
  rcases s.advance.push_cases s.advance.pc with ⟨-, hp⟩ | ⟨u, -, hlt, -⟩
  · simp only [TakesFault, exec, execCall, hp]; rfl
  · exact absurd h hlt.ne

/-- Settles O24: the two cases of a pop. -/
theorem retPopsOrUnderflows : Obligations.RetPopsOrUnderflows :=
  ⟨decode_encode .ret, fun _ => ⟨ret_completes, ret_underflows⟩⟩

/-- Settles O26: the two cases of a push. -/
theorem callPushesOrOverflows : Obligations.CallPushesOrOverflows := fun nnn _ =>
  ⟨decode_encode (.call nnn), call_completes nnn, call_overflows nnn⟩

/-- Settles O27: the newest entry after the call is the one the call wrote, and the return leaves the entries alone. -/
theorem returnComesBackAfterCall : Obligations.ReturnComesBackAfterCall := by
  intro nnn s h
  obtain ⟨t, hcall, htpc, htsp, htstack, hst⟩ := call_completes nnn h
  obtain ⟨u, hret, hupc, husp, hustack, htu⟩ := ret_completes (s := t) (by omega)
  have hback : u.pc = s.pc + 2 := by rw [hupc, htstack, if_pos (by omega)]
  have hentries : ∀ k (_ : k < 16), k ≠ s.sp.val → u.stack[k] = s.stack[k] := fun k hk hne => by
    simp only [hustack, htstack k hk, if_neg hne]
  exact ⟨t, hcall, htpc, u, hret, hback, Fin.ext (by omega), hentries, hst.trans htu⟩

end Sys2Proof.Machine
end

section
/-! Family 42_alu: register loads and the ALU. Every instruction here ends in the write of one register or of a result and
its flag; what each write gives and keeps is said once, in `Completes.of_setReg` and `Completes.of_writeWithFlag`. With VF
as the destination the later of the two writes stands, so that form is again the write of one register. -/

namespace Sys2Proof.Machine

/-! ## Results and flags as numbers -/

theorem toNat_flagByte (p : Prop) [Decidable p] : (flagByte (decide p)).toNat = if p then 1 else 0 := by
  by_cases h : p
  · rw [decide_eq_true h, if_pos h]; rfl
  · rw [decide_eq_false h, if_neg h]; rfl

section
variable (a b : Byte)

theorem toNat_carryFlag : (carryFlag a b).toNat = if 255 < a.toNat + b.toNat then 1 else 0 := toNat_flagByte _

theorem toNat_noBorrowFlag : (noBorrowFlag a b).toNat = if b.toNat ≤ a.toNat then 1 else 0 := toNat_flagByte _

theorem toNat_lowBitFlag : (lowBitFlag a).toNat = a.toNat % 2 :=
  (BitVec.toNat_and a 1#8).trans (Nat.and_one_is_mod _)

theorem toNat_highBitFlag : (highBitFlag a).toNat = a.toNat / 128 := by
  have ha := a.isLt
  have hbit : (highBitFlag a).toNat = a.toNat / 128 % 2 := by
    rw [highBitFlag, BitVec.toNat_and, BitVec.toNat_ushiftRight, Nat.shiftRight_eq_div_pow]
    exact Nat.and_one_is_mod _
  omega

/-- A byte difference is the exact difference mod 256. -/
theorem toNat_byte_sub : ((a - b).toNat : Int) = (a.toNat - b.toNat : Int) % 256 := by
  have ha := a.isLt
  have hb := b.isLt
  rw [BitVec.toNat_sub]
  omega

theorem toNat_byte_ushiftRight_one : (a >>> 1).toNat = a.toNat / 2 :=
  (BitVec.toNat_ushiftRight a 1).trans (Nat.shiftRight_eq_div_pow _ 1)

theorem toNat_byte_shiftLeft_one : (a <<< 1).toNat = a.toNat * 2 % 256 := by
  rw [BitVec.toNat_shiftLeft, Nat.shiftLeft_eq]

end

/-! ## Writing one register -/

theorem Completes.mono {i : Instr} {s : State} {p q : State → Prop} (h : Completes i s p) (hpq : ∀ t, p t → q t) :
    Completes i s q := by
  obtain ⟨t, hexec, ht⟩ := h
  exact ⟨t, hexec, hpq t ht⟩

theorem State.setReg_reg_same (s : State) (x : RegIdx) (b : Byte) : (s.setReg x b).reg x = b := by
  rw [State.setReg_reg, if_pos rfl]

/-- The later of two writes to one register stands. -/
theorem State.setReg_setReg_same (s : State) (x : RegIdx) (b c : Byte) : (s.setReg x b).setReg x c = s.setReg x c := by
  simp only [State.setReg, Vector.set_set]

theorem onlyReg_setReg (s : State) (x : RegIdx) (b : Byte) : OnlyReg x s (s.advance.setReg x b) :=
  ⟨rfl, fun _ hr => State.setReg_reg_ne _ b hr, fun _ => rfl, rfl, ⟨rfl, rfl⟩, ⟨rfl, rfl⟩, rfl, rfl, rfl⟩

/-- An instruction that writes `V[x]` leaves its value there and keeps everything else. -/
theorem Completes.of_setReg {i : Instr} {s : State} {x : RegIdx} {b : Byte}
    (h : exec i s = .next (s.advance.setReg x b)) : Completes i s fun t => t.reg x = b ∧ OnlyReg x s t :=
  ⟨_, h, State.setReg_reg_same _ x b, onlyReg_setReg s x b⟩

/-- Settles O31: the literal is written. -/
theorem loadImmediate : Obligations.LoadImmediate := fun x nn _ =>
  ⟨decode_encode (.ldImm x nn), .of_setReg rfl⟩

/-- Settles O32: the byte sum is the sum mod 256. -/
theorem addImmediateWrapsWithoutFlag : Obligations.AddImmediateWrapsWithoutFlag := by
  intro x nn s
  have hadd : Completes (.addImm x nn) s fun t => t.reg x = s.reg x + nn ∧ OnlyReg x s t := .of_setReg rfl
  exact ⟨decode_encode (.addImm x nn), hadd.mono fun t ⟨hreg, honly⟩ => ⟨by rw [hreg, BitVec.toNat_add], honly⟩⟩

/-- Settles O33: the four results are written as they stand. -/
theorem copyAndLogicWithoutFlag : Obligations.CopyAndLogicWithoutFlag := fun x y _ =>
  ⟨decode_encode (.ldReg x y), decode_encode (.orReg x y), decode_encode (.andReg x y), decode_encode (.xorReg x y),
    .of_setReg rfl, .of_setReg rfl, .of_setReg rfl, .of_setReg rfl⟩

/-- Settles O38: a byte masked by `nn` has no bit outside `nn`, and the count of draws is in no frame. -/
theorem randomIsAFreeByteMasked : Obligations.RandomIsAFreeByteMasked := by
  intro x nn s
  have hreg : (s.advance.countDraw.setReg x (s.freeByte &&& nn)).reg x = s.freeByte &&& nn :=
    State.setReg_reg_same _ x _
  have hmask : s.freeByte &&& nn &&& ~~~nn = 0 := by
    rw [BitVec.and_assoc, BitVec.and_not_self]
    exact BitVec.and_zero
  exact ⟨decode_encode (.rnd x nn), _, rfl, hreg, by rw [hreg, hmask], rfl, onlyReg_setReg s.countDraw x _⟩

/-! ## Writing a result and its flag -/

/-- Whatever the setting and the destination, only `V[x]` and VF can change. -/
theorem onlyRegAndFlag_writeWithFlag (s : State) (p : VfDestPolicy) (o : ClauseOrder) (x : RegIdx) (r f : Byte) :
    OnlyRegAndFlag x s (s.advance.writeWithFlag p o x r f) := by
  have hregs : SameRegsExcept (fun q => q = x ∨ q = VF) s (s.advance.writeWithFlag p o x r f) := fun q hq =>
    State.writeWithFlag_reg_ne _ _ _ _ _ _ (fun e => hq (.inl e)) fun e => hq (.inr e)
  rw [State.writeWithFlag_rest] at hregs ⊢
  exact ⟨rfl, hregs, fun _ => rfl, rfl, ⟨rfl, rfl⟩, ⟨rfl, rfl⟩, rfl, rfl, rfl⟩

section
variable {i : Instr} {s : State} {o : ClauseOrder} {x : RegIdx} {r f : Byte}

theorem State.writeWithFlag_reg_flag (p : VfDestPolicy) (hx : x ≠ VF) : (s.writeWithFlag p o x r f).reg VF = f := by
  rw [State.writeWithFlag_ne _ _ _ _ _ hx, State.setReg_reg_same]

theorem State.writeWithFlag_reg_result (p : VfDestPolicy) (hx : x ≠ VF) : (s.writeWithFlag p o x r f).reg x = r := by
  rw [State.writeWithFlag_ne _ _ _ _ _ hx, State.setReg_reg_ne _ _ hx, State.setReg_reg_same]

/-- With a destination other than VF, the result and the flag both stand and everything else is kept. -/
theorem Completes.of_writeWithFlag (h : exec i s = .next (s.advance.writeWithFlag vfAsDest o x r f)) (hx : x ≠ VF) :
    Completes i s fun t => t.reg x = r ∧ t.reg VF = f ∧ OnlyRegAndFlag x s t :=
  ⟨_, h, State.writeWithFlag_reg_result _ hx, State.writeWithFlag_reg_flag _ hx, onlyRegAndFlag_writeWithFlag ..⟩

/-- Under the setting in force the flag is what VF keeps as the destination of `8xy4`, `8xy5`, `8xy7`. -/
theorem Completes.of_resultThenFlag_VF
    (h : exec i s = .next (s.advance.writeWithFlag vfAsDest .resultThenFlag VF r f)) :
    Completes i s fun t => t.reg VF = f ∧ OnlyReg VF s t :=
  .of_setReg (h.trans (congrArg _ (State.setReg_setReg_same ..)))

/-- Under the setting in force the result is what VF keeps as the destination of `8xy6`, `8xyE`. -/
theorem Completes.of_flagThenResult_VF
    (h : exec i s = .next (s.advance.writeWithFlag vfAsDest .flagThenResult VF r f)) :
    Completes i s fun t => t.reg VF = r ∧ OnlyReg VF s t :=
  .of_setReg (h.trans (congrArg _ (State.setReg_setReg_same ..)))

end

/-- Settles O34: the byte sum is the sum mod 256, and the carry stands in VF. -/
theorem addRegistersWithCarry : Obligations.AddRegistersWithCarry := by
  intro x y s
  refine ⟨decode_encode (.addReg x y), fun hx => (Completes.of_writeWithFlag rfl hx).mono ?_⟩
  rintro t ⟨hreg, hflag, honly⟩
  exact ⟨by rw [hreg, BitVec.toNat_add], by rw [hflag, toNat_carryFlag], honly⟩

/-- Settles O35: the two subtractions differ only in which operand comes first. -/
theorem subtractRegistersWithNoBorrow : Obligations.SubtractRegistersWithNoBorrow := by
  intro x y s
  refine ⟨decode_encode (.subReg x y), decode_encode (.subnReg x y), fun hx =>
    ⟨(Completes.of_writeWithFlag rfl hx).mono ?_, (Completes.of_writeWithFlag rfl hx).mono ?_⟩⟩
  all_goals
    rintro t ⟨hreg, hflag, honly⟩
    exact ⟨by rw [hreg, toNat_byte_sub], by rw [hflag, toNat_noBorrowFlag], honly⟩

/-- Settles O36: a shift by one is a division or a product by 2; `exec` does not read y. -/
theorem shiftsInPlace : Obligations.ShiftsInPlace := by
  intro x y s
  refine ⟨decode_encode (.shr x y), decode_encode (.shl x y), fun hx =>
    ⟨(Completes.of_writeWithFlag rfl hx).mono ?_, (Completes.of_writeWithFlag rfl hx).mono ?_⟩⟩
  · rintro t ⟨hreg, hflag, honly⟩
    exact ⟨by rw [hreg, toNat_byte_ushiftRight_one], by rw [hflag, toNat_lowBitFlag], honly⟩
  · rintro t ⟨hreg, hflag, honly⟩
    exact ⟨by rw [hreg, toNat_byte_shiftLeft_one], by rw [hflag, toNat_highBitFlag], honly⟩

/-- Settles O37: with VF as the destination the later write stands, or the draw under `any`. -/
theorem flagOperationsOnVf : Obligations.FlagOperationsOnVf := by
  intro y s
  refine ⟨(Completes.of_resultThenFlag_VF rfl).mono ?_, (Completes.of_resultThenFlag_VF rfl).mono ?_,
    (Completes.of_resultThenFlag_VF rfl).mono ?_, (Completes.of_flagThenResult_VF rfl).mono ?_,
    (Completes.of_flagThenResult_VF rfl).mono ?_, fun o r f => ⟨State.setReg_reg_same _ VF f, ?_, fun p x hx =>
      ⟨State.writeWithFlag_reg_flag p hx, State.writeWithFlag_reg_result p hx⟩⟩⟩
  · exact fun t ⟨hflag, honly⟩ => ⟨honly, by rw [hflag, toNat_carryFlag]⟩
  · exact fun t ⟨hflag, honly⟩ => ⟨honly, by rw [hflag, toNat_noBorrowFlag]⟩
  · exact fun t ⟨hflag, honly⟩ => ⟨honly, by rw [hflag, toNat_noBorrowFlag]⟩
  · exact fun t ⟨hreg, honly⟩ => ⟨honly, by rw [hreg, toNat_byte_ushiftRight_one]⟩
  · exact fun t ⟨hreg, honly⟩ => ⟨honly, by rw [hreg, toNat_byte_shiftLeft_one]⟩
  · exact State.setReg_reg_same s.countDraw VF s.freeByte

end Sys2Proof.Machine
end

section
/-! Family 43_index_memory: the index register and the memory instructions. The write of `I` is said once, in
`Completes.of_setIndex`. Fx33 and Fx55 are one checked store, `State.storeChecked`, of different bytes, so what a store
leaves in memory and which fault it takes is said once about that; Fx65 has its own two cases. -/

namespace Sys2Proof.Machine

/-! ## Writing the index register -/

/-- An instruction that writes `I` leaves its value there and keeps everything else. -/
theorem Completes.of_setIndex {i : Instr} {s : State} {w : Word} (h : exec i s = .next (s.advance.setIndex w)) :
    Completes i s fun t => t.index = w ∧ OnlyIndex s t :=
  ⟨_, h, rfl, rfl, fun _ => rfl, fun _ => rfl, ⟨rfl, rfl⟩, ⟨rfl, rfl⟩, rfl, rfl, rfl⟩

/-- A glyph address is five bytes per glyph past the font's start; the 16-bit product does not wrap. -/
theorem toNat_glyphAddr (b : Byte) : (glyphAddr b).toNat = 5 * (b.toNat % 16) := by
  have hdigit : (zext16 (b &&& 0x0F#8)).toNat = b.toNat % 16 := by
    rw [BitVec.toNat_setWidth_of_le (by decide), BitVec.toNat_and]
    exact Nat.and_two_pow_sub_one_eq_mod b.toNat 4
  rw [glyphAddr, BitVec.toNat_add, BitVec.toNat_mul, hdigit, BitVec.toNat_ofNat, BitVec.toNat_ofNat]
  omega

/-- Settles O39: the literal is zero-extended. -/
theorem setIndex : Obligations.SetIndex := by
  intro nnn s
  have hset : Completes (.ldIndex nnn) s fun t => t.index = addrWord nnn ∧ OnlyIndex s t := .of_setIndex rfl
  exact ⟨decode_encode (.ldIndex nnn), hset.mono fun t ⟨hindex, honly⟩ => ⟨by rw [hindex, toNat_addrWord], honly⟩⟩

/-- Settles O40: a word sum is the sum mod 65536. -/
theorem addIndexWrapsAtSixteenBits : Obligations.AddIndexWrapsAtSixteenBits := by
  intro x s
  have hset : Completes (.addIndex x) s fun t => t.index = s.index + zext16 (s.reg x) ∧ OnlyIndex s t :=
    .of_setIndex rfl
  refine ⟨decode_encode (.addIndex x), hset.mono fun t ⟨hindex, honly⟩ => ⟨?_, honly⟩⟩
  rw [hindex, BitVec.toNat_add, BitVec.toNat_setWidth_of_le (by decide)]

/-- Settles O41: the index is the glyph address, at most that of glyph F. -/
theorem fontAddressOfLowDigit : Obligations.FontAddressOfLowDigit := by
  intro x s
  have hset : Completes (.ldFont x) s fun t => t.index = glyphAddr (s.reg x) ∧ OnlyIndex s t := .of_setIndex rfl
  refine ⟨decode_encode (.ldFont x), hset.mono fun t ⟨hindex, honly⟩ => ?_⟩
  have haddr : t.index.toNat = 5 * ((s.reg x).toNat % 16) := by rw [hindex, toNat_glyphAddr]
  exact ⟨haddr, by omega, honly⟩

/-! ## The faults of the checks at `I` -/

section
variable {s : State} {n : Nat}

/-- A store that starts in the protected font fails at its first byte. -/
theorem State.writeFaultAtIndex_of_font (hn : 0 < n) (hp : fontWrite = .fault) (h : s.effAddr 0 ≤ 0x04F) :
    s.writeFaultAtIndex fontWrite n = some (.fontWrite (s.effAddr 0)) := by
  rw [State.writeFaultAtIndex, blockFault_write _ _ _ hn, if_pos ⟨hp, h⟩]

/-- A store of at most 16 bytes whose last one lies past the end starts above the font, so it fails at the lowest
address past the end. -/
theorem State.writeFaultAtIndex_of_pastEnd (hn : n < 16) (h : 0xFFF < s.effAddr n) :
    s.writeFaultAtIndex fontWrite (n + 1) = some (.outOfRangeAccess (max (s.effAddr 0) 0x1000)) := by
  unfold State.effAddr at h ⊢
  rw [State.writeFaultAtIndex, blockFault_write _ _ _ (by omega), State.effAddr, if_neg (by omega),
    if_pos (by omega)]

/-- A read whose last byte lies past the end fails at the lowest address there. -/
theorem State.readFaultAtIndex_of_pastEnd (h : 0xFFF < s.effAddr n) :
    s.readFaultAtIndex (n + 1) = some (.outOfRangeAccess (max (s.effAddr 0) 0x1000)) := by
  unfold State.effAddr at h ⊢
  rw [State.readFaultAtIndex, blockFault_read, State.effAddr, if_pos (by omega)]

end

/-! ## The checked store -/

/-- The store at `I` that Fx33 and Fx55 make: the checks of all bytes, then the bytes (spec/20_memory.md R64). -/
def State.storeChecked (s : State) (i : Instr) (bs : List Byte) : Host.Outcome State Fault Refusal :=
  match s.writeFaultAtIndex fontWrite bs.length with
  | some f => s.raise i f
  | none => .next (s.advance.storeAtIndex bs)

theorem exec_ldBcd (x : RegIdx) (s : State) :
    exec (.ldBcd x) s = s.storeChecked (.ldBcd x) (bcdDigits (s.reg x)) := rfl

theorem exec_storeRegs (x : RegIdx) (s : State) :
    exec (.storeRegs x) s = s.storeChecked (.storeRegs x) (s.regsUpTo x) := by
  rw [State.storeChecked, State.length_regsUpTo]
  rfl

section
variable {i : Instr} {s : State} {bs : List Byte} {n : Nat}

/-- What a store leaves: its bytes in order from `I`, and everything else as it was. -/
theorem onlyStored_storeAtIndex (s : State) (bs : List Byte) :
    OnlyStored bs.length s (s.advance.storeAtIndex bs) :=
  ⟨rfl, fun _ => rfl, fun _ hb => s.mem.read_writeBlock_outside bs hb, rfl, ⟨rfl, rfl⟩, ⟨rfl, rfl⟩, rfl, rfl, rfl⟩

theorem State.advance_storeAtIndex_read (s : State) {bs : List Byte} {k : Nat} (hk : k < bs.length) :
    (s.advance.storeAtIndex bs).mem.read (s.effAddr k) = bs[k] :=
  s.mem.read_writeBlock_inside (s.effAddr 0) bs hk

/-- A store whose bytes pass their checks leaves each byte in its place and keeps everything else. -/
theorem Completes.of_storeChecked (h : exec i s = s.storeChecked i bs) (hn : bs.length = n + 1)
    (hs : s.CanStore (n + 1)) : Completes i s fun t =>
      (∀ k (_ : k < bs.length), t.mem.read (s.effAddr k) = bs[k]) ∧ OnlyStored (n + 1) s t := by
  have hcheck : s.writeFaultAtIndex fontWrite bs.length = none := by
    rw [hn]
    exact (State.writeFaultAtIndex_none n.succ_pos).mpr hs
  have hexec : exec i s = .next (s.advance.storeAtIndex bs) := by rw [h, State.storeChecked, hcheck]
  exact ⟨_, hexec, fun _ hk => s.advance_storeAtIndex_read hk, hn ▸ onlyStored_storeAtIndex s bs⟩

/-- A store whose check fails takes the fault of the check. -/
theorem TakesFault.of_storeChecked {f : Fault} (h : exec i s = s.storeChecked i bs) (hn : bs.length = n + 1)
    (hf : s.writeFaultAtIndex fontWrite (n + 1) = some f) : TakesFault i s f := by
  rw [TakesFault, h, State.storeChecked, hn, hf]
  rfl

end

/-- Settles O42: the checked store of the three digits. -/
theorem storeBcdWritesThreeDigits : Obligations.StoreBcdWritesThreeDigits := by
  intro x s
  have hbyte := (s.reg x).isLt
  have hexec := exec_ldBcd x s
  have hlen : (bcdDigits (s.reg x)).length = 2 + 1 := rfl
  refine ⟨decode_encode (.ldBcd x), fun hs => (Completes.of_storeChecked hexec hlen hs).mono ?_, fun hp h => ?_,
    fun h => ?_⟩
  · rintro t ⟨hread, honly⟩
    have hhundreds : t.mem.read (s.effAddr 0) = BitVec.ofNat 8 ((s.reg x).toNat / 100) := hread 0 (by omega)
    have htens : t.mem.read (s.effAddr 1) = BitVec.ofNat 8 ((s.reg x).toNat / 10 % 10) := hread 1 (by omega)
    have hones : t.mem.read (s.effAddr 2) = BitVec.ofNat 8 ((s.reg x).toNat % 10) := hread 2 (by omega)
    rw [hhundreds, htens, hones, BitVec.toNat_ofNat, BitVec.toNat_ofNat, BitVec.toNat_ofNat]
    exact ⟨by omega, by omega, by omega, honly⟩
  · exact .of_storeChecked hexec hlen (State.writeFaultAtIndex_of_font (Nat.succ_pos 2) hp h)
  · exact .of_storeChecked hexec hlen (State.writeFaultAtIndex_of_pastEnd (by decide) h)

/-- A store of V0 to Vx whose bytes pass their checks leaves each register's value at its place. -/
theorem storeRegs_completes (x : RegIdx) {s : State} (hs : s.CanStore (x.toNat + 1)) :
    Completes (.storeRegs x) s fun t =>
      (∀ r : RegIdx, r.toNat ≤ x.toNat → t.mem.read (s.effAddr r.toNat) = s.reg r) ∧ OnlyStored (x.toNat + 1) s t := by
  refine (Completes.of_storeChecked (exec_storeRegs x s) (s.length_regsUpTo x) hs).mono ?_
  rintro t ⟨hread, honly⟩
  refine ⟨fun r hr => ?_, honly⟩
  rw [hread r.toNat (by rw [State.length_regsUpTo]; omega), State.getElem_regsUpTo, BitVec.ofNat_toNat,
    BitVec.setWidth_eq]

/-- Settles O43: the checked store of V0 to Vx. -/
theorem storeRegistersWritesBlock : Obligations.StoreRegistersWritesBlock := by
  intro x s
  have hexec := exec_storeRegs x s
  have hlen := s.length_regsUpTo x
  refine ⟨decode_encode (.storeRegs x), storeRegs_completes x, fun hp h => ?_, fun h => ?_⟩
  · exact .of_storeChecked hexec hlen (State.writeFaultAtIndex_of_font x.toNat.succ_pos hp h)
  · exact .of_storeChecked hexec hlen (State.writeFaultAtIndex_of_pastEnd x.isLt h)

/-! ## The checked load -/

/-- A register the block reaches takes the byte at its place. -/
theorem State.setRegs_readAtIndex_reg (s : State) {n : Nat} {r : RegIdx} (h : r.toNat < n) :
    (s.setRegs (fillRegs 0 (s.readAtIndex n) s.v)).reg r = s.mem.read (s.effAddr r.toNat) := by
  have hlen : r.toNat < (s.readAtIndex n).length := by rwa [State.readAtIndex, Memory.length_readBlock]
  rw [State.setRegs_reg, getElem_fillRegs, if_pos (by omega), Nat.sub_zero, List.getD_eq_getElem _ _ hlen]
  exact Memory.getElem_readBlock ..

/-- A load of V0 to Vx whose bytes may be read takes each register from its place and keeps everything else. -/
theorem loadRegs_completes (x : RegIdx) {s : State} (hs : s.CanRead (x.toNat + 1)) :
    Completes (.loadRegs x) s fun t =>
      (∀ r : RegIdx, r.toNat ≤ x.toNat → t.reg r = s.mem.read (s.effAddr r.toNat)) ∧ t.pc = s.pc + 2 ∧
      SameRegsExcept (fun r => r.toNat ≤ x.toNat) s t ∧ SameButRegsPc s t := by
  have hcheck : s.readFaultAtIndex (x.toNat + 1) = none := State.readFaultAtIndex_none.mpr (.inr hs)
  have hexec : exec (.loadRegs x) s =
      .next (s.advance.setRegs (fillRegs 0 (s.readAtIndex (x.toNat + 1)) s.v)) := by
    simp only [exec, execLoadRegs, hcheck]
  have hkept : SameRegsExcept (fun r => r.toNat ≤ x.toNat) s _ := onlyNamedRegistersChange _ _ _ hexec
  exact ⟨_, hexec, fun r hr => s.advance.setRegs_readAtIndex_reg (Nat.lt_succ_of_le hr), rfl, hkept, fun _ => rfl, rfl,
    ⟨rfl, rfl⟩, ⟨rfl, rfl⟩, rfl, rfl, rfl⟩

theorem loadRegs_pastEnd (x : RegIdx) {s : State} (h : 0xFFF < s.effAddr x.toNat) :
    TakesFault (.loadRegs x) s (.outOfRangeAccess (max (s.effAddr 0) 0x1000)) := by
  simp only [TakesFault, exec, execLoadRegs, State.readFaultAtIndex_of_pastEnd h]
  rfl

/-- Settles O44: the two cases of the checked load. -/
theorem loadRegistersReadsBlock : Obligations.LoadRegistersReadsBlock := fun x _ =>
  ⟨decode_encode (.loadRegs x), loadRegs_completes x, loadRegs_pastEnd x⟩

/-- Settles O45: the store keeps `I` and the change of the registers keeps memory, so the load reads the stored bytes. -/
theorem loadAfterStoreRestoresRegisters : Obligations.LoadAfterStoreRestoresRegisters := by
  intro x s hs
  refine (storeRegs_completes x hs).mono fun t ⟨hstored, _, _, _, hindex, _⟩ v => ?_
  have haddr (k : Nat) : (t.setRegs v).effAddr k = s.effAddr k := by
    rw [State.effAddr, State.setRegs_index, hindex, State.effAddr]
  have hread : (t.setRegs v).CanRead (x.toNat + 1) := by
    rw [State.CanRead, haddr]
    exact hs.1
  refine (loadRegs_completes x hread).mono fun u ⟨hloaded, _⟩ r hr => ?_
  calc u.reg r = t.mem.read ((t.setRegs v).effAddr r.toNat) := hloaded r hr
    _ = t.mem.read (s.effAddr r.toNat) := by rw [haddr]
    _ = s.reg r := hstored r hr

end Sys2Proof.Machine
end

section
/-! Family 44_display: clear-screen and draw. What a draw makes of the cells and of VF is said once, in `Drawn`, in
terms of the cells its sprite covers; the draw keeps what those depend on, so two draws compose by it. -/

namespace Sys2Proof.Machine

/-- Settles O46: the whole display is replaced by the blank one. -/
theorem clearScreenUnlightsEveryCell : Obligations.ClearScreenUnlightsEveryCell :=
  ⟨decode_encode .cls, fun s => ⟨s.advance.setDisp blankDisplay, rfl, lit_blankDisplay, rfl, fun _ => rfl,
    fun _ => rfl, rfl, ⟨rfl, rfl⟩, ⟨rfl, rfl⟩, ⟨rfl, rfl⟩⟩⟩

/-! ## The cells a sprite covers -/

theorem eq_pixelAt_iff {p : Pixel} {px py : Nat} : p = pixelAt px py ↔ p.1.val = px % 64 ∧ p.2.val = py % 32 := by
  rw [Prod.ext_iff, Fin.ext_iff, Fin.ext_iff, pixelAt_val_fst, pixelAt_val_snd]

theorem State.length_readAtIndex (s : State) (n : Nat) : (s.readAtIndex n).length = n :=
  Memory.length_readBlock ..

theorem State.readAtIndex_getD (s : State) {n r : Nat} (h : r < n) :
    (s.readAtIndex n).getD r 0 = s.mem.read (s.effAddr r) := by
  have hlen : r < (s.readAtIndex n).length := by rwa [State.length_readAtIndex]
  rw [List.getD_eq_getElem _ _ hlen]
  exact Memory.getElem_readBlock ..

section
variable {x y : RegIdx} {n : Nibble} {s t : State}

/-- The cells a draw toggles are those under the set bits of its sprite. -/
theorem State.mem_spritePixels_iff_covers {p : Pixel} :
    p ∈ spritePixels ((s.reg x).toNat % 64) ((s.reg y).toNat % 32) (s.readAtIndex n.toNat) ↔
      s.SpriteCovers x y n p := by
  rw [mem_spritePixels, State.length_readAtIndex, State.SpriteCovers]
  refine exists_congr fun r => exists_congr fun c => and_congr_right fun hr => and_congr_right fun _ => ?_
  rw [s.readAtIndex_getD hr, eq_pixelAt_iff]

/-! ## One draw -/

/-- `t` is `s` after a draw: every covered cell flipped, every other cell kept, and in VF whether a covered cell was
lit (spec/44_display.md R172). -/
structure Drawn (x y : RegIdx) (n : Nibble) (s t : State) : Prop where
  flips : ∀ p, s.SpriteCovers x y n p → lit t.disp p = !lit s.disp p
  keeps : ∀ p, ¬ s.SpriteCovers x y n p → lit t.disp p = lit s.disp p
  flag_one : t.reg VF = 1 ↔ ∃ p, s.SpriteCovers x y n p ∧ lit s.disp p = true
  flag_zero : t.reg VF = 0 ↔ ¬ ∃ p, s.SpriteCovers x y n p ∧ lit s.disp p = true

/-- The instruction wrote the display and VF only, and went on to the next word. -/
def OnlyDispAndFlag (s t : State) : Prop :=
  t.pc = s.pc + 2 ∧ SameRegsExcept (fun r => r = VF) s t ∧ SameMem s t ∧ t.index = s.index ∧ SameStack s t ∧
  SameTimers s t ∧ SameKeysHalt s t

theorem flagByte_eq_one {c : Bool} : flagByte c = 1 ↔ c = true := by
  cases c <;> decide

theorem flagByte_eq_zero {c : Bool} : flagByte c = 0 ↔ ¬ c = true := by
  cases c <;> decide

/-- The sprite of a draw has at most 15 rows, so no cell is toggled twice. -/
theorem drawn_drawAt (x y : RegIdx) (n : Nibble) (s : State) : Drawn x y n s (s.advance.drawAt x y n) := by
  have hrows : (s.readAtIndex n.toNat).length ≤ 32 := by
    rw [State.length_readAtIndex]
    exact (n.isLt.trans (by decide)).le
  obtain ⟨hcells, hhit⟩ := drawSprite_spec s.disp ((s.reg x).toNat % 64) ((s.reg y).toNat % 32) hrows
  simp only [State.mem_spritePixels_iff_covers] at hhit
  have hflag : (s.advance.drawAt x y n).reg VF = flagByte (s.drawing x y n).2 := State.setReg_reg_same ..
  exact {
    flips := fun p hp => (hcells p).trans (if_pos (State.mem_spritePixels_iff_covers.mpr hp))
    keeps := fun p hp => (hcells p).trans (if_neg fun hm => hp (State.mem_spritePixels_iff_covers.mp hm))
    flag_one := by rw [hflag, flagByte_eq_one]; exact hhit
    flag_zero := by rw [hflag, flagByte_eq_zero]; exact not_congr hhit }

theorem onlyDispAndFlag_drawAt (x y : RegIdx) (n : Nibble) (s : State) :
    OnlyDispAndFlag s (s.advance.drawAt x y n) :=
  ⟨rfl, fun _ hr => State.setReg_reg_ne _ _ hr, fun _ => rfl, rfl, ⟨rfl, rfl⟩, ⟨rfl, rfl⟩, rfl, rfl⟩

/-- A draw whose sprite may be read completes. -/
theorem drw_completes (x y : RegIdx) (h : n = 0 ∨ s.CanRead n.toNat) :
    Completes (.drw x y n) s fun t => Drawn x y n s t ∧ OnlyDispAndFlag s t := by
  have hcheck : s.readFaultAtIndex n.toNat = none :=
    State.readFaultAtIndex_none.mpr (h.imp_left fun hn => congrArg BitVec.toNat hn)
  have hexec : exec (.drw x y n) s = .next (s.advance.drawAt x y n) := by simp only [exec, execDrw, hcheck]
  exact ⟨_, hexec, drawn_drawAt x y n s, onlyDispAndFlag_drawAt x y n s⟩

theorem drw_pastEnd (x y : RegIdx) (hn : 0 < n.toNat) (h : 0xFFF < s.effAddr (n.toNat - 1)) :
    TakesFault (.drw x y n) s (.outOfRangeAccess (max (s.effAddr 0) 0x1000)) := by
  have hcheck := State.readFaultAtIndex_of_pastEnd h
  rw [Nat.sub_add_cancel hn] at hcheck
  simp only [TakesFault, exec, execDrw, hcheck]
  rfl

/-- VF says whether a draw unlit a cell: it unlights the covered cells that were lit. -/
theorem Drawn.collision (h : Drawn x y n s t) :
    (t.reg VF = 1 ∧ ∃ p, lit s.disp p = true ∧ lit t.disp p = false) ∨
    (t.reg VF = 0 ∧ ∀ p, lit s.disp p = true → lit t.disp p = true) := by
  by_cases hhit : ∃ p, s.SpriteCovers x y n p ∧ lit s.disp p = true
  · obtain ⟨p, hp, hlit⟩ := hhit
    exact .inl ⟨h.flag_one.mpr ⟨p, hp, hlit⟩, p, hlit, by rw [h.flips p hp, hlit]; rfl⟩
  · refine .inr ⟨h.flag_zero.mpr hhit, fun p hlit => ?_⟩
    rw [h.keeps p fun hp => hhit ⟨p, hp, hlit⟩, hlit]

/-! ## What a draw keeps of a sprite -/

theorem OnlyDispAndFlag.effAddr (h : OnlyDispAndFlag s t) (k : Nat) : t.effAddr k = s.effAddr k := by
  obtain ⟨-, -, -, hindex, -⟩ := h
  rw [State.effAddr, hindex, State.effAddr]

/-- A draw moves no sprite whose coordinates are not in VF. -/
theorem OnlyDispAndFlag.spriteCovers (h : OnlyDispAndFlag s t) (hx : x ≠ VF) (hy : y ≠ VF) :
    t.SpriteCovers x y n = s.SpriteCovers x y n := by
  have haddr := h.effAddr
  obtain ⟨-, hregs, hmem, -⟩ := h
  funext p
  simp only [State.SpriteCovers, hregs x hx, hregs y hy, hmem _, haddr]

end

/-! ## The obligations -/

/-- Settles O47: the two cases of the check before a draw. -/
theorem drawXorsSpriteWithCollision : Obligations.DrawXorsSpriteWithCollision := fun x y n _ =>
  ⟨decode_encode (.drw x y n),
    fun hread => (drw_completes x y hread).mono fun _ ⟨hdrawn, honly⟩ =>
      ⟨hdrawn.flips, hdrawn.keeps, hdrawn.collision, honly⟩,
    drw_pastEnd x y⟩

/-- Settles O48: the second draw covers the same cells, so it flips each of them back. -/
theorem drawTwiceRestoresDisplay : Obligations.DrawTwiceRestoresDisplay := by
  intro x y n s hx hy hread
  refine (drw_completes x y hread).mono fun t ⟨hst, honly⟩ => ⟨hst.flag_one, ?_⟩
  have hcovers := honly.spriteCovers (n := n) hx hy
  have hread' : n = 0 ∨ t.CanRead n.toNat := by rwa [State.CanRead, honly.effAddr]
  refine (drw_completes x y hread').mono fun u ⟨htu, _⟩ => ⟨display_ext fun p => ?_, ?_⟩
  · by_cases hp : s.SpriteCovers x y n p
    · rw [htu.flips p (hcovers ▸ hp), hst.flips p hp, Bool.not_not]
    · rw [htu.keeps p (hcovers ▸ hp), hst.keeps p hp]
  · rw [htu.flag_one, hcovers]
    refine exists_congr fun p => and_congr_right fun hp => ?_
    rw [hst.flips p hp, Bool.not_eq_true']

end Sys2Proof.Machine
end

section
/-! Family 45_timers_keys: key input and timers. What `exec` answers on each answer of the key scan is said once per case;
the skips, the register write and their frames are those of families 41_flow and 42_alu. -/

namespace Sys2Proof.Machine

/-! ## Skips on a key -/

section
variable (x : RegIdx) {s : State}

theorem exec_skp_of_key (h : (s.reg x).toNat < 16) :
    exec (.skp x) s = .next (s.advance.skipIf s.key[(s.reg x).toNat]) := by
  simp only [exec, execSkp, s.keyAt_lt h]

theorem exec_sknp_of_key (h : (s.reg x).toNat < 16) :
    exec (.sknp x) s = .next (s.advance.skipIf !s.key[(s.reg x).toNat]) := by
  simp only [exec, execSknp, s.keyAt_lt h]

theorem skp_outOfRange (h : 15 < (s.reg x).toNat) : TakesFault (.skp x) s (.keyIndexOutOfRange (s.reg x)) := by
  simp only [TakesFault, exec, execSkp, s.keyAt_ge h]
  rfl

theorem sknp_outOfRange (h : 15 < (s.reg x).toNat) : TakesFault (.sknp x) s (.keyIndexOutOfRange (s.reg x)) := by
  simp only [TakesFault, exec, execSknp, s.keyAt_ge h]
  rfl

end

/-- Settles O49: up to index 15 both are skips, on the key's state and on its negation. -/
theorem keySkips : Obligations.KeySkips := fun x _ =>
  ⟨decode_encode (.skp x), decode_encode (.sknp x),
    fun h => ⟨.of_skipIf (exec_skp_of_key x h) Iff.rfl, .of_skipIf (exec_sknp_of_key x h) (.of_eq (Bool.not_eq_true' _))⟩,
    fun h => ⟨skp_outOfRange x h, sknp_outOfRange x h⟩⟩

/-! ## Waiting for a key -/

section
variable {s : State}

/-- The scan's answer is a pressed key, so it is not below `k`, and none below it is pressed, so `k` is not. -/
theorem State.lowestKey_eq_some {k : Nat} (hk : k < 16) (hpressed : s.key[k] = true)
    (hlower : ∀ j (_ : j < k), s.key[j] = false) : s.lowestKey = some k := by
  rcases s.lowestKey_cases with ⟨-, hnone⟩ | ⟨l, hl, hscan, hl_pressed, hl_lower⟩
  · simp [hnone k hk] at hpressed
  · have hlk : ¬ l < k := fun h => by simp [hlower l h] at hl_pressed
    have hkl : ¬ k < l := fun h => by simp [hl_lower k hk h] at hpressed
    rw [hscan, Nat.le_antisymm (Nat.le_of_not_lt hkl) (Nat.le_of_not_lt hlk)]

theorem State.lowestKey_eq_none (hnone : ∀ k (_ : k < 16), s.key[k] = false) : s.lowestKey = none := by
  rcases s.lowestKey_cases with ⟨hscan, -⟩ | ⟨k, hk, -, hpressed, -⟩
  · exact hscan
  · simp [hnone k hk] at hpressed

/-- Going back over the advance undoes it, wrapped or not. -/
theorem State.advance_setPc_sub_two (s : State) : s.advance.setPc (s.advance.pc - 2) = s := by
  have hpc : s.pc + 2 - 2 = s.pc := BitVec.add_sub_cancel ..
  exact congrArg s.setPc hpc

theorem exec_ldKey_of_key (x : RegIdx) {k : Nat} (h : s.lowestKey = some k) :
    exec (.ldKey x) s = .next (s.advance.setReg x (BitVec.ofNat 8 k)) := by
  simp only [exec, execLdKey, h]

theorem exec_ldKey_of_none (x : RegIdx) (h : s.lowestKey = none) : exec (.ldKey x) s = .next s := by
  simp only [exec, execLdKey, h, State.advance_setPc_sub_two]

end

/-- Settles O51: the scan finds the key and its index fits a byte, or it finds none and the state is as it was. -/
theorem waitKeyTakesLowestOrWaits : Obligations.WaitKeyTakesLowestOrWaits := by
  intro x s
  refine ⟨decode_encode (.ldKey x), fun k hk hpressed hlower => ?_, fun hnone => ?_⟩
  · have hexec := exec_ldKey_of_key x (State.lowestKey_eq_some hk hpressed hlower)
    refine (Completes.of_setReg hexec).mono fun t ⟨hreg, honly⟩ => ⟨?_, honly⟩
    rw [hreg, BitVec.toNat_ofNat]
    omega
  · exact exec_ldKey_of_none x (State.lowestKey_eq_none hnone)

/-! ## Timers -/

/-- Settles O50: the timer is written to the register. -/
theorem loadDelayReadsTimer : Obligations.LoadDelayReadsTimer := fun x _ =>
  ⟨decode_encode (.ldFromDelay x), .of_setReg rfl⟩

theorem State.soundActive_iff (s : State) : s.soundActive = true ↔ s.st ≠ 0 := bne_iff_ne

/-- Settles O52: each writes its own timer on the advanced state. -/
theorem storeTimers : Obligations.StoreTimers := fun x s =>
  ⟨decode_encode (.ldDelay x), decode_encode (.ldSound x),
    ⟨s.advance.setDelay (s.reg x), rfl, rfl, rfl, rfl, fun _ => rfl, fun _ => rfl, rfl, ⟨rfl, rfl⟩, rfl, rfl, rfl⟩,
    ⟨s.advance.setSound (s.reg x), rfl, rfl, State.soundActive_iff _, rfl, rfl, fun _ => rfl, fun _ => rfl, rfl,
      ⟨rfl, rfl⟩, rfl, rfl, rfl⟩⟩

end Sys2Proof.Machine
end

section
/-! Family 60_exceptions: faults, the halted Machine and the host's operations. What a cycle of a running Machine can
raise is said once, in `State.CycleRaises` and `step_running_cases`; what the operations other than a reset keep of a
halted Machine in `KeptWhileHalted`. -/

namespace Sys2Proof.Machine

/-! ## The invariant over a run -/

/-- An allowed store keeps the canonical form. -/
theorem Memory.Stored.wf {m m' : Memory} (h : m.Stored m') (hm : m.wf) : m'.wf := by
  obtain ⟨a, bs, hend, -, rfl⟩ := h
  exact Memory.wf_writeBlock hm bs hend

/-- A host operation keeps the canonical form: a reset empties the list, and every other operation makes an allowed
store. -/
theorem perform_keeps_inv {e : HostEvent} {s t : State} {r : Reply} (hs : s.Inv) (h : perform e s = .next (t, r)) :
    t.Inv := by
  rcases perform_mem h with hmem | hmem
  · rw [State.Inv, hmem]; exact Memory.wf_nil
  · exact hmem.wf hs

/-- Settles O17: every operation of the run keeps the invariant. -/
theorem hostRunsKeepCanonicalMemory : Obligations.HostRunsKeepCanonicalMemory := fun _ _ _ =>
  performAll_keeps fun _ _ _ _ _ => perform_keeps_inv

/-! ## The faults of a cycle -/

/-- A cycle from `s` raises the fault, with the word it has fetched (spec/60_exceptions.md R200, R201): one
constructor per phase. -/
inductive State.CycleRaises (s : State) : Fault → Option Word → Prop where
  | fetchFault {f : Fault} (hpc : 0xFFF ≤ s.pc.toNat) (hf : s.fetch = .error f) : CycleRaises s f none
  | illegalWord {w : Word} (hf : s.fetch = .ok w) (hd : decode w = .decodeFailure w) :
      CycleRaises s .decodeFailure (some w)
  | execute {w : Word} {i : Instr} {f : Fault} (hf : s.fetch = .ok w) (hd : decode w = .instr i)
      (hi : i.CanRaise s f) : CycleRaises s f (some w)

/-- Everything a cycle of a running Machine can be: the taking of a fault it raises, or a cycle that leaves it
running. -/
theorem step_running_cases {s t : State} (hrun : s.halt = none) (h : step s = .next t) :
    (∃ f w, s.CycleRaises f w ∧ t = s.enterFault f w) ∨ t.halt = none := by
  rcases step_cases s with ⟨hhalt, -⟩ | ⟨-, hpc, he⟩ | ⟨w, bad, -, hf, hd, he⟩ | ⟨w, i, -, hf, hd, he⟩
  · simp [hrun] at hhalt
  · cases he.symm.trans h
    exact .inl ⟨_, _, .fetchFault hpc (State.fetch_of_ge hpc), rfl⟩
  · cases he.symm.trans h
    obtain ⟨rfl, -⟩ := illegal_of_decodeFailure hd
    exact .inl ⟨_, _, .illegalWord hf hd, rfl⟩
  · rcases exec_inversion (he.symm.trans h) with ⟨f, hi, rfl⟩ | hk
    · rw [encode_of_decode hd]
      exact .inl ⟨_, _, .execute hf hd hi, rfl⟩
    · exact .inr (hk.halt.trans hrun)

/-- A cycle that halts a running Machine takes a fault it raises. -/
theorem step_halting {s t : State} (hrun : s.halt = none) (h : step s = .next t) (hhalt : t.halt ≠ none) :
    ∃ f w, s.CycleRaises f w ∧ t = s.enterFault f w :=
  (step_running_cases hrun h).resolve_right hhalt

/-- What the record of R201 holds as its word: the fetched one, or none where the fetch itself faulted. -/
theorem State.CycleRaises.word {s : State} {f : Fault} {w : Option Word} (h : s.CycleRaises f w) :
    (∃ v, s.fetch = .ok v ∧ w = some v) ∨ (s.fetch = .error f ∧ w = none) := by
  cases h with
  | fetchFault _ hf => exact .inr ⟨hf, rfl⟩
  | illegalWord hf _ => exact .inl ⟨_, hf, rfl⟩
  | execute hf _ _ => exact .inl ⟨_, hf, rfl⟩

/-- A `cycle` operation answers the state after a step. -/
theorem perform_cycle_of_step {s t : State} (h : step s = .next t) :
    perform .cycle s = .next (t, cycleReply s t) := by
  simp only [perform, h]

/-- A cycle that halts a running Machine returns the record (spec/30_encoding.md R89). -/
theorem cycleReply_of_halting {s t : State} {r : FaultRecord} (hrun : s.halt = none) (ht : t.halt = some r) :
    cycleReply s t = .faulted r := by
  simp only [cycleReply, hrun, ht]

/-- Settles O10: the state after the fault is that of `State.enterFault`. -/
theorem faultingCycleChangesOnlyHalt : Obligations.FaultingCycleChangesOnlyHalt := by
  intro s t hrun h hhalt
  obtain ⟨f, w, hraise, rfl⟩ := step_halting hrun h hhalt
  refine ⟨⟨f, s.pc, w⟩, rfl, ?_, rfl, hraise.word⟩
  rw [perform_cycle_of_step h, cycleReply_of_halting hrun (s.enterFault_halt f w)]

/-- Settles O11: the three phases are the three causes. -/
theorem faultsComeOnlyFromListedCauses : Obligations.FaultsComeOnlyFromListedCauses := by
  intro s t r hrun h hr
  obtain ⟨f, w, hraise, rfl⟩ := step_halting hrun h (by simp [hr])
  cases hr
  cases hraise with
  | fetchFault hpc hf => exact .inl ⟨hf, hpc⟩
  | illegalWord hf hd => exact .inr (.inl ⟨_, hf, hd, rfl⟩)
  | execute hf hd hi => exact .inr (.inr ⟨_, _, hf, hd, hi⟩)

/-! ## The halted Machine -/

/-- Everything `setKey` can do: write the key's state, or reject an index above 15. -/
theorem State.setKey_cases (s : State) (k : Nat) (b : Bool) :
    (∃ _ : k < 16, s.setKey k b = ({ s with key := s.key.set k b }, .ok)) ∨
    (15 < k ∧ s.setKey k b = (s, .error .keyIndexInvalid)) := by
  by_cases h : k < 16
  · exact .inl ⟨h, dif_pos h⟩
  · exact .inr ⟨by omega, dif_neg h⟩

/-- A cycle of a halted Machine answers the stored record (spec/30_encoding.md R89). -/
theorem cycleReply_of_halted {s t : State} {r : FaultRecord} (hs : s.halt = some r) : cycleReply s t = .halted r := by
  simp only [cycleReply, hs]

theorem step_of_halted {s : State} {r : FaultRecord} (h : s.halt = some r) : step s = .next s := by
  simp [step, cycleState, h]

/-- What the host's operations keep of a halted Machine until a reset (spec/60_exceptions.md R203): all but the
timers, the keys and the memory a program is loaded to. A field may be left out where it is kept by definition. -/
structure KeptWhileHalted (s t : State) : Prop where
  halt : t.halt = s.halt := by rfl
  regs : SameRegs s t := by intro _; rfl
  index : t.index = s.index := by rfl
  pc : t.pc = s.pc := by rfl
  stack : SameStack s t := by exact ⟨rfl, rfl⟩
  disp : t.disp = s.disp := by rfl
  lowMem : ∀ a, a < Config.programOrigin → t.mem.read a = s.mem.read a := by intros; rfl

theorem KeptWhileHalted.trans {s t u : State} (h : KeptWhileHalted s t) (h' : KeptWhileHalted t u) :
    KeptWhileHalted s u where
  halt := h'.halt.trans h.halt
  regs r := (h'.regs r).trans (h.regs r)
  index := h'.index.trans h.index
  pc := h'.pc.trans h.pc
  stack := ⟨h'.stack.1.trans h.stack.1, h'.stack.2.trans h.stack.2⟩
  disp := h'.disp.trans h.disp
  lowMem a ha := (h'.lowMem a ha).trans (h.lowMem a ha)

/-- A program is loaded above the addresses that are kept. -/
theorem State.loadProgram_keeps (s : State) (bs : List Byte) : KeptWhileHalted s (s.loadProgram bs).1 := by
  rcases s.loadProgram_cases bs with ⟨-, hl⟩ | ⟨-, hl⟩ <;> rw [hl]
  · exact {}
  · exact { lowMem := fun a ha => s.mem.read_writeBlock_outside bs (.inl ha) }

theorem State.setKey_keeps (s : State) (k : Nat) (b : Bool) : KeptWhileHalted s (s.setKey k b).1 := by
  rcases s.setKey_cases k b with ⟨_, he⟩ | ⟨-, he⟩ <;> rw [he]
  · exact {}
  · exact {}

theorem fst_eq_of_next_eq {p : State × Reply} {t : State} {a : Reply}
    (h : (.next p : Host.Outcome (State × Reply) Fault Refusal) = .next (t, a)) : p.1 = t :=
  congrArg Prod.fst (Host.Outcome.next.inj h)

/-- A host operation other than a reset keeps what is kept of a halted Machine: its cycle does nothing. -/
theorem perform_keeps_halted {e : HostEvent} {s t : State} {r : FaultRecord} {a : Reply} (hs : s.halt = some r)
    (he : e ≠ .reset) (h : perform e s = .next (t, a)) : KeptWhileHalted s t := by
  cases e with
  | reset => exact absurd rfl he
  | loadProgram bs => exact fst_eq_of_next_eq h ▸ s.loadProgram_keeps bs
  | cycle =>
    cases (step_of_halted hs).symm.trans (perform_cycle_next h).1
    exact {}
  | tickTimers => cases h; exact {}
  | setKey k b => exact fst_eq_of_next_eq h ▸ s.setKey_keeps k b
  | readDisplay => cases h; exact {}

/-- Settles O12: the cycle does nothing, a load and a key write keep `halt`, and the timers' tick does not read it. -/
theorem haltedMachineExecutesNothing : Obligations.HaltedMachineExecutesNothing := by
  intro s r hs
  have hcycle : perform .cycle s = .next (s, .halted r) := by
    rw [perform_cycle_of_step (step_of_halted hs), cycleReply_of_halted hs]
  refine ⟨step_of_halted hs, hcycle, rfl, ?_, fun k b => ⟨_, _, rfl, ?_⟩, fun bs => ⟨_, _, rfl, ?_⟩,
    _, rfl, rfl⟩
  · rw [← hs]; rfl
  · exact (s.setKey_keeps k b).halt.trans hs
  · exact (s.loadProgram_keeps bs).halt.trans hs

/-- A run without a reset keeps what is kept of a halted Machine: every operation finds it halted still. -/
theorem performAll_keeps_halted {es : List HostEvent} {s t : State} {r : FaultRecord} (hs : s.halt = some r)
    (hes : HostEvent.reset ∉ es) (h : performAll es s = .next t) : KeptWhileHalted s t := by
  refine performAll_keeps (P := KeptWhileHalted s) (fun e he u v a hu hv => ?_) {} h
  have hne : e ≠ .reset := fun hreset => hes (hreset ▸ he)
  exact hu.trans (perform_keeps_halted (hu.halt.trans hs) hne hv)

/-- Settles O13: the record is among what the run keeps. -/
theorem haltEndsOnlyByReset : Obligations.HaltEndsOnlyByReset := by
  intro es s t r hs hes h
  have hkept := performAll_keeps_halted hs hes h
  exact ⟨hkept.halt.trans hs, hkept.regs, hkept.index, hkept.pc, hkept.stack, hkept.disp, hkept.lowMem⟩

/-! ## The self loop -/

/-- Settles O14: the jump writes to the program counter the value it has. -/
theorem selfLoopChangesNothing : Obligations.SelfLoopChangesNothing := by
  rintro s hrun ⟨nnn, hpc, hf⟩
  have hjump : exec (.jp nnn) s = .next (s.setPc (addrWord nnn)) := rfl
  rw [step_of_decode hrun hf (decode_encode _), hjump, ← hpc]
  rfl

/-! ## The host's operations -/

@[simp] theorem State.length_readDisplay (s : State) : s.readDisplay.length = 2048 := by
  simp [State.readDisplay]

theorem State.readDisplay_getElem? (s : State) {k : Nat} (h : k < 2048) :
    s.readDisplay[k]? = some (lit s.disp (pixelAt (k % 64) (k / 64))) := by
  simp [State.readDisplay, h]

/-- The column and the row are read back from a cell's row-major place (spec/60_exceptions.md R217). -/
theorem pixelAt_rowMajor (p : Pixel) :
    pixelAt ((p.1.val + 64 * p.2.val) % 64) ((p.1.val + 64 * p.2.val) / 64) = p :=
  (eq_pixelAt_iff.mpr ⟨by omega, by omega⟩).symm

/-- Settles O59: each cell is listed at its row-major place. -/
theorem readDisplayIsRowMajor : Obligations.ReadDisplayIsRowMajor := by
  refine fun s => ⟨rfl, s.length_readDisplay, fun p => ?_⟩
  rw [s.readDisplay_getElem? (by omega), pixelAt_rowMajor]

theorem toNat_tickDown (b : Byte) : (tickDown b).toNat = b.toNat - 1 := by
  unfold tickDown
  split
  · next h => exact BitVec.toNat_sub_of_le (BitVec.le_def.mpr h)
  · next h => omega

/-- Settles O57: each timer is ticked down on its own. -/
theorem tickSaturatesAtZero : Obligations.TickSaturatesAtZero := fun s =>
  ⟨s.tickTimers, rfl, rfl, toNat_tickDown s.dt, toNat_tickDown s.st⟩

/-- Settles O58: the two cases of a key write. -/
theorem setKeyWritesOneKey : Obligations.SetKeyWritesOneKey := by
  intro k pressed s
  rcases s.setKey_cases k pressed with ⟨hk, he⟩ | ⟨hk, he⟩
  · refine ⟨fun _ => ⟨_, congrArg _ he, rfl, fun j hj => ?_⟩, fun h => by omega⟩
    rw [Vector.getElem_set]
    exact if_congr eq_comm rfl rfl
  · exact ⟨fun h => by omega, fun _ => congrArg _ he⟩

end Sys2Proof.Machine
end

section
/-! Family 70_reset_and_hazards: the reset, the load of a program, and that no operation is left without a next state.
Nothing in the model answers `fault` or `refused`: a failed check of an instruction answers the state that has taken the
fault, and a rejected host operation an error as its reply. -/

namespace Sys2Proof.Machine

/-! ## Reset -/

/-- Settles O55: `State.restart` is the reset state with the counter of draws kept. -/
theorem resetRestoresInitialState : Obligations.ResetRestoresInitialState := ⟨rfl, fun _ => rfl⟩

/-! ## Loading a program -/

/-- Settles O56: the two cases of a load; the buffer is one written block at the program origin. -/
theorem loadProgramCopiesBuffer : Obligations.LoadProgramCopiesBuffer := by
  intro bytes s
  rcases s.loadProgram_cases bytes with ⟨hlarge, hl⟩ | ⟨hfits, hl⟩
  · exact ⟨fun h => absurd hlarge (Nat.not_lt_of_le h), fun _ => congrArg _ hl⟩
  · refine ⟨fun _ => ⟨_, congrArg _ hl, rfl, fun k hk => ?_, fun b hb => ?_⟩,
      fun h => absurd h (Nat.not_lt_of_le hfits)⟩
    · exact s.mem.read_writeBlock_inside _ bytes hk
    · exact s.mem.read_writeBlock_outside bytes hb

/-! ## Every operation completes -/

/-- Every instruction answers a next state: one that checks something answers one on either result of its check, and
every other is a single update. -/
theorem exec_answers_next (i : Instr) (s : State) : ∃ t, exec i s = .next t := by
  cases i with
  | ret | call | drw | skp | sknp | ldKey | ldBcd | storeRegs | loadRegs =>
    simp only [exec, execRet, execCall, execDrw, execSkp, execSknp, execLdKey, execLdBcd, execStoreRegs, execLoadRegs]
    split <;> exact ⟨_, rfl⟩
  | _ => exact ⟨_, rfl⟩

/-- Every cycle answers a next state, whichever of the four cases it is. -/
theorem step_answers_next (s : State) : ∃ t, step s = .next t := by
  rcases step_cases s with ⟨-, he⟩ | ⟨-, -, he⟩ | ⟨_, _, -, -, -, he⟩ | ⟨_, i, -, -, -, he⟩
  · exact ⟨_, he⟩
  · exact ⟨_, he⟩
  · exact ⟨_, he⟩
  · rw [he]
    exact exec_answers_next i s

/-- Every host operation answers a next state and a reply: all but the cycle do by definition. -/
theorem perform_answers_next (e : HostEvent) (s : State) : ∃ t r, perform e s = .next (t, r) := by
  cases e with
  | cycle =>
    obtain ⟨t, ht⟩ := step_answers_next s
    exact ⟨t, _, perform_cycle_of_step ht⟩
  | reset | loadProgram | tickTimers | setKey | readDisplay => exact ⟨_, _, rfl⟩

/-- Settles O9: an execution answers a next state, so a cycle does, so a host operation does. -/
theorem everyOperationCompletes : Obligations.EveryOperationCompletes :=
  ⟨step_answers_next, exec_answers_next, perform_answers_next⟩

end Sys2Proof.Machine
end

section
/-! The parameter `FONT` at reset (spec/20_memory.md R61, log entry 1): memory lists no cell then, so a block of the font's
addresses reads as the same stretch of `font`. -/

namespace Sys2Proof.Machine

/-- Any block within the font's addresses, read at reset, is that stretch of the bytes of `FONT`. -/
theorem readBlock_reset_eq_font {a n : Nat} (h : a + n ≤ Config.fontSize) :
    State.reset.mem.readBlock a n = (font.drop a).take n := by
  have hlen : ((font.drop a).take n).length = n := by
    rw [List.length_take, List.length_drop, length_font]
    omega
  refine List.ext_getElem ((Memory.length_readBlock ..).trans hlen.symm) fun k hk hk' => ?_
  have hfont : font[a + k]? = some (State.reset.mem.read (a + k)) := font_getElem? (by omega)
  rw [Memory.getElem_readBlock, List.getElem_take, List.getElem_drop]
  exact ((List.getElem_eq_iff _).mpr hfont).symm

/-- Settles O54: each glyph is a block within the font, and the bytes of `FONT` there are the default ones. -/
theorem defaultFontRows : Obligations.DefaultFontRows := by
  refine ⟨?_, ?_, ?_, ?_, ?_, ?_⟩
  all_goals exact readBlock_reset_eq_font (by decide)

end Sys2Proof.Machine
end
